-- ==== Sys2Proof/Word.lean ====
section
/-! DEFINITION. The word of COMET II and its plainest arithmetic (00_scope.md R10, R11). -/

namespace Sys2Proof

/-- A word: 16 bits, bit 15 the sign and most significant bit (R10; bit 0 least significant: D1, log 26). -/
abbrev Word := BitVec 16

/-- An 8-bit character code (48_casl2_assembler.md R224). The machine itself has no bytes (20_memory.md R50). -/
abbrev Byte := BitVec 8

/-- `w16(n)` of R11: the word whose unsigned value is `n mod 65536`, for any integer `n`. -/
abbrev w16 (n : Int) : Word := BitVec.ofInt 16 n

/-- `uint(v)` of R11. -/
abbrev uint (v : Word) : Nat := v.toNat

/-- `sint(v)` of R11: the two's-complement value. -/
abbrev sint (v : Word) : Int := v.toInt

/-- `zext_16` of R11, the one extension the spec uses: a character code in bits 7 to 0, zeros above. -/
abbrev zext16 (c : Byte) : Word := c.setWidth 16

end Sys2Proof
end

