-- ==== Sys2Proof/Config.lean ====
section
/-! DEFINITION. What an implementation fixes: the free value of FR, what storage nothing has written holds, and the launch
parameters that `State.reset` uses. -/

namespace Sys2Proof

/-- The values FR takes where the spec calls them unspecified (47_other.md R201, R202: `anybit()` for each of the three
bits). The n-th draw is `Config.freeFlags n`; it has no body, so nothing can be proved of its value. Log 19. -/
opaque Config.freeFlags : Nat → BitVec 3

/-- What a word of storage that nothing has written reads as: the parameter INIT_MEM (10_state.md R36) at one value.
DESIGN CHOICE, unsafe, log 2. -/
def Config.unwritten : Word := 0x0000

/-- LOAD_BASE and execution start address of `State.reset`. DESIGN CHOICE, unsafe, log 3 (the value of
95_test_vectors.md Part 3). -/
def Config.startAddress : Word := 0x1000

/-- STACK_TOP of `State.reset` (00_scope.md R8). DESIGN CHOICE, unsafe, log 3. -/
def Config.stackTop : Word := 0xF000

/-- OS_RET of `State.reset` (00_scope.md R8). DESIGN CHOICE, unsafe, log 3. -/
def Config.osRet : Word := 0xFF00

/-- Words of IN's input area (00_scope.md R7, 49_macro_in_out.md R252). -/
def Config.inputAreaWords : Nat := 256

end Sys2Proof
end

