-- ==== Sys2Proof/Syntax.lean ====
section
/-! DEFINITION. The instructions: one constructor per row of spec/opcode_table.json (30_encoding.md R84). -/

namespace Sys2Proof

/-- The nine general registers (10_state.md R20). `gr8` is the stack pointer SP (R21). -/
inductive GR where
  | gr0 | gr1 | gr2 | gr3 | gr4 | gr5 | gr6 | gr7 | gr8
deriving DecidableEq, Repr

/-- The instructions, in the order of the opcode map R84. `…Mem` is the form `r,adr[,x]`, `…Reg` the form `r1,r2`
of a mnemonic that has both (R94); `x` is the optional index register, where GR0 is ill-formed (R22). -/
inductive Instr where
  | nop
  | ldMem (r : GR) (adr : Word) (x : Option GR)
  | st (r : GR) (adr : Word) (x : Option GR)
  | lad (r : GR) (adr : Word) (x : Option GR)
  | ldReg (r1 r2 : GR)
  | addaMem (r : GR) (adr : Word) (x : Option GR)
  | subaMem (r : GR) (adr : Word) (x : Option GR)
  | addlMem (r : GR) (adr : Word) (x : Option GR)
  | sublMem (r : GR) (adr : Word) (x : Option GR)
  | addaReg (r1 r2 : GR)
  | subaReg (r1 r2 : GR)
  | addlReg (r1 r2 : GR)
  | sublReg (r1 r2 : GR)
  | andMem (r : GR) (adr : Word) (x : Option GR)
  | orMem (r : GR) (adr : Word) (x : Option GR)
  | xorMem (r : GR) (adr : Word) (x : Option GR)
  | andReg (r1 r2 : GR)
  | orReg (r1 r2 : GR)
  | xorReg (r1 r2 : GR)
  | cpaMem (r : GR) (adr : Word) (x : Option GR)
  | cplMem (r : GR) (adr : Word) (x : Option GR)
  | cpaReg (r1 r2 : GR)
  | cplReg (r1 r2 : GR)
  | sla (r : GR) (adr : Word) (x : Option GR)
  | sra (r : GR) (adr : Word) (x : Option GR)
  | sll (r : GR) (adr : Word) (x : Option GR)
  | srl (r : GR) (adr : Word) (x : Option GR)
  | jmi (adr : Word) (x : Option GR)
  | jnz (adr : Word) (x : Option GR)
  | jze (adr : Word) (x : Option GR)
  | jump (adr : Word) (x : Option GR)
  | jpl (adr : Word) (x : Option GR)
  | jov (adr : Word) (x : Option GR)
  | push (adr : Word) (x : Option GR)
  | pop (r : GR)
  | rpush
  | rpop
  | call (adr : Word) (x : Option GR)
  | ret
  | svc (adr : Word) (x : Option GR)
deriving DecidableEq, Repr

end Sys2Proof
end

