-- ==== Sys2Proof/Machine/State.lean ====
section
/-! DEFINITION. The state of COMET II, the reasons a step stops, and the state after reset (10_state.md R20 to R36). -/

namespace Sys2Proof.Machine

/-- The nine general registers (R20); `gr8` is SP, one and the same cell (R21). -/
structure GprFile where
  gr0 : Word
  gr1 : Word
  gr2 : Word
  gr3 : Word
  gr4 : Word
  gr5 : Word
  gr6 : Word
  gr7 : Word
  gr8 : Word
deriving DecidableEq, Repr

/-- The flag register (R26). No instruction sees it as a number. -/
structure FR where
  OF : Bool
  SF : Bool
  ZF : Bool
deriving DecidableEq, Repr

/-- One word of main storage at its address. The unit of storage is the word, there are no bytes (20_memory.md R50), so a
cell is a word where Host.Cell has a byte; log 1. -/
abbrev Cell := Nat × Word

/-- Main storage (R34): the words that do not read as `Config.unwritten`, addresses strictly rising. -/
abbrev Memory := List Cell

/-- The canonical form of storage: addresses strictly rising, each an address of the machine (0 to 65535), and no entry
equal to what an unlisted address reads as. Decidable. -/
abbrev Memory.wf (m : Memory) : Prop :=
  m.Pairwise (fun c d => c.1 < d.1) ∧ ∀ c ∈ m, c.1 < 65536 ∧ c.2 ≠ Config.unwritten

/-- A record of input or output: its 8-bit character codes, without the delimiter (49_macro_in_out.md R253, R258). -/
abbrev Record := List Byte

/-- The whole state. -/
structure State where
  /-- GR0 to GR8 (R20). -/
  gr : GprFile
  /-- PR: the address of the first word of the next instruction (R24). -/
  pc : Word
  /-- FR (R26). -/
  fr : FR
  /-- Main storage (R34). -/
  mem : Memory
  /-- INPUT: the records not yet consumed (R35). -/
  input : List Record
  /-- OUTPUT: the records written so far, oldest first (R35). -/
  output : List Record
  /-- OS_RET: the OS's return address, fixed for the run (70_reset_and_hazards.md R291 (d)). -/
  osRet : Word
  /-- Has the run ended, that is, has a RET loaded OS_RET into PR (70_reset_and_hazards.md R292)? -/
  ended : Bool
  /-- The model's own: how many times FR has been drawn from `Config.freeFlags` (log 19). -/
  freeCount : Nat
deriving DecidableEq, Repr

/-- Why the machine stops with a fault. -/
inductive Fault where
  /-- `IllegalInstruction(w0)` with the address `w0` was fetched from (60_exceptions.md R271): raised by `step` when the
  first word is no instruction (30_encoding.md R90). Safe: a faulted run is never a final state (log 9). -/
  | illegalInstruction (w0 : Word) (address : Word)
deriving DecidableEq, Repr

/-- Why a step is given no meaning. -/
inductive Refusal where
  /-- An instruction without a meaning yet: raised by an arm of `exec` only. Safe. -/
  | notModelled (mnemonic : String)
  /-- An SVC argument other than 1 and 2 (47_other.md R202): raised by `supervisorCall`. Safe (log 20). -/
  | svcArgumentUndefined (arg : Word)
  /-- OUT with a length word that is negative (49_macro_in_out.md R258): raised by `serviceOut`. Safe (log 22). -/
  | outLengthNegative (n : Word)
  /-- PR is OS_RET and no RET put it there (70_reset_and_hazards.md R292): raised by `step`. Safe (log 23). -/
  | osReturnNotByRet
  /-- The run has ended, control is in the OS (70_reset_and_hazards.md R292): raised by `step`. Safe (log 23). -/
  | runEnded
deriving DecidableEq, Repr

/-- Right after reset: the state when the OS starts a program (R36, D26), at the launch parameters of Config.
GR8 is STACK_TOP - 1 and the word there is OS_RET (R36); PR, STACK_TOP and OS_RET are log 3, GR0 to GR7 log 4, FR log 5,
INPUT and the draw count log 6, unlisted storage log 2. -/
def State.reset : State :=
  { gr :=
      { gr0 := 0, gr1 := 0, gr2 := 0, gr3 := 0, gr4 := 0, gr5 := 0, gr6 := 0, gr7 := 0
        gr8 := Config.stackTop - 1 }
    pc := Config.startAddress
    fr := { OF := false, SF := false, ZF := false }
    mem := [((Config.stackTop - 1).toNat, Config.osRet)]
    input := []
    output := []
    osRet := Config.osRet
    ended := false
    freeCount := 0 }

end Sys2Proof.Machine
end

