-- ==== Sys2Proof/Machine/Flags.lean ====
section
/-! DEFINITION. Every flag computation of the spec: FR as three bits (10_state.md R26), the results and OF of the additions
and subtractions (41_arithmetic_logic.md R131), comparison (42_compare.md R151), one-bit shift steps (43_shift.md R161 to
R165), and the jump conditions (44_branch.md R171). -/

namespace Sys2Proof.Machine

/-- The packing of FR where one is wanted: OF bit 2, SF bit 1, ZF bit 0 (R26, D25, log 26). -/
def FR.ofBits (b : BitVec 3) : FR :=
  { OF := b.getLsbD 2, SF := b.getLsbD 1, ZF := b.getLsbD 0 }

/-- OF as given, with `setSZ(v)` of 00_scope.md R13: SF is bit 15 of the result, ZF tells that all its bits are 0. -/
def FR.ofResult (o : Bool) (v : Word) : FR :=
  { OF := o, SF := v.getLsbD 15, ZF := decide (v = 0) }

/-! ### Add and subtract (R131): the exact result, the word stored and OF -/

/-- The stored word of an exact result: its low 16 bits (D9, log 12). -/
def storedResult (e : Int) : Word := w16 e

/-- OF of the arithmetic operations: the exact result is outside -32768 to 32767 (R27). -/
def arithmeticOverflow (e : Int) : Bool := decide (e < -32768 ∨ e > 32767)

/-- OF of the logical operations: the exact result is outside 0 to 65535 (R27). -/
def logicalOverflow (e : Int) : Bool := decide (e < 0 ∨ e > 65535)

/-- The exact result of ADDA. -/
def exactAdda (a b : Word) : Int := sint a + sint b

/-- The exact result of SUBA. -/
def exactSuba (a b : Word) : Int := sint a - sint b

/-- The exact result of ADDL. -/
def exactAddl (a b : Word) : Int := (uint a : Int) + (uint b : Int)

/-- The exact result of SUBL. -/
def exactSubl (a b : Word) : Int := (uint a : Int) - (uint b : Int)

/-! ### Compare (R151, 表4) -/

/-- `cmp(ka, kb)`: OF 0; greater, equal and less by the exact numbers. -/
def FR.ofCompare (ka kb : Int) : FR :=
  { OF := false, SF := decide (ka < kb), ZF := decide (ka = kb) }

/-! ### Shifts (R161): the bit sent out, and the register after, of one step -/

/-- SLA by one (R162), `{v[15], v[13:0], 0}`: bit 15 stays, bit 14 is sent out, 0 enters at bit 0. -/
def stepSla (v : Word) : Bool × Word :=
  (v.getLsbD 14, (v &&& 0x8000#16) ||| ((v <<< 1) &&& 0x7FFF#16))

/-- SRA by one (R163), `{v[15], v[15], v[14:1]}`: bit 15 stays and enters at bit 14, bit 0 is sent out. -/
def stepSra (v : Word) : Bool × Word :=
  (v.getLsbD 0, (v >>> 1) ||| (v &&& 0x8000#16))

/-- SLL by one (R164; D12, log 14), `{v[14:0], 0}`: bit 15 is sent out, 0 enters at bit 0. -/
def stepSll (v : Word) : Bool × Word :=
  (v.getLsbD 15, v <<< 1)

/-- SRL by one (R165; D12, log 14), `{0, v[15:1]}`: bit 0 is sent out, 0 enters at bit 15. -/
def stepSrl (v : Word) : Bool × Word :=
  (v.getLsbD 0, v >>> 1)

/-- `n` repetitions of a one-bit step from (last bit sent out, register). -/
def shiftLoop (step : Word → Bool × Word) : Nat → Bool × Word → Bool × Word
  | 0, p => p
  | n + 1, p => shiftLoop step n (step p.2)

/-- `shift(step, v, n)` of R161: `out` starts at 0, so a count of 0 gives 0 (D13, log 15). -/
def shift (step : Word → Bool × Word) (v : Word) (n : Nat) : Bool × Word :=
  shiftLoop step n (false, v)

/-! ### Jump conditions (R171, 表7) -/

/-- JPL: SF = 0 and ZF = 0. -/
def FR.plus (f : FR) : Bool := !f.SF && !f.ZF

/-- JMI: SF = 1. -/
def FR.minus (f : FR) : Bool := f.SF

/-- JNZ: ZF = 0. -/
def FR.nonZero (f : FR) : Bool := !f.ZF

/-- JZE: ZF = 1. -/
def FR.zero (f : FR) : Bool := f.ZF

/-- JOV: OF = 1. -/
def FR.overflow (f : FR) : Bool := f.OF

end Sys2Proof.Machine
end

