-- ==== Sys2Proof/Machine/Ops.lean ====
section
/-! DEFINITION. The named operations over storage and registers, the stack transfers, and the supervisor call: the one trap
of the machine (60_exceptions.md R275, R276) with the two services of 49_macro_in_out.md. -/

namespace Sys2Proof.Machine

/-! ### Main storage (20_memory.md R50, R54; 00_scope.md R13 MemRead, MemWrite) -/

/-- The word of storage at an address. -/
def Memory.read (m : Memory) (a : Word) : Word :=
  match m with
  | [] => Config.unwritten
  | (k, v) :: rest => if k = a.toNat then v else Memory.read rest a

/-- List `v` at key `k`, in its place. -/
def Memory.insertKey (k : Nat) (v : Word) : Memory → Memory
  | [] => [(k, v)]
  | (k', v') :: rest =>
    if k < k' then (k, v) :: (k', v') :: rest
    else if k = k' then (k, v) :: rest
    else (k', v') :: Memory.insertKey k v rest

/-- Unlist key `k`. -/
def Memory.eraseKey (k : Nat) : Memory → Memory
  | [] => []
  | (k', v') :: rest =>
    if k' = k then Memory.eraseKey k rest else (k', v') :: Memory.eraseKey k rest

/-- Storage with `v` at address `a`; a word that an unlisted address reads as is not listed. -/
def Memory.write (m : Memory) (a v : Word) : Memory :=
  if v = Config.unwritten then Memory.eraseKey a.toNat m else Memory.insertKey a.toNat v m

/-- `MemRead(a, 1)`. -/
def State.read (s : State) (a : Word) : Word := s.mem.read a

/-- `MemWrite(a, 1, v)`. -/
def State.write (s : State) (a v : Word) : State := { s with mem := s.mem.write a v }

/-! ### Registers (10_state.md R20, R21) -/

/-- The contents of a general register. -/
def GprFile.get (g : GprFile) : GR → Word
  | .gr0 => g.gr0
  | .gr1 => g.gr1
  | .gr2 => g.gr2
  | .gr3 => g.gr3
  | .gr4 => g.gr4
  | .gr5 => g.gr5
  | .gr6 => g.gr6
  | .gr7 => g.gr7
  | .gr8 => g.gr8

/-- The register file with one register written; none is hardwired (R20). -/
def GprFile.set (g : GprFile) (r : GR) (v : Word) : GprFile :=
  match r with
  | .gr0 => { g with gr0 := v }
  | .gr1 => { g with gr1 := v }
  | .gr2 => { g with gr2 := v }
  | .gr3 => { g with gr3 := v }
  | .gr4 => { g with gr4 := v }
  | .gr5 => { g with gr5 := v }
  | .gr6 => { g with gr6 := v }
  | .gr7 => { g with gr7 := v }
  | .gr8 => { g with gr8 := v }

/-- `x[r]` (00_scope.md R12). -/
def State.reg (s : State) (r : GR) : Word := s.gr.get r

/-- `x[r] <- v`. -/
def State.setReg (s : State) (r : GR) (v : Word) : State := { s with gr := s.gr.set r v }

/-- SP is another name of GR8 (R21). -/
def State.sp (s : State) : Word := s.reg .gr8

/-- `SP <- v`. -/
def State.setSp (s : State) (v : Word) : State := s.setReg .gr8 v

/-- `pc <- v`. -/
def State.setPc (s : State) (v : Word) : State := { s with pc := v }

/-- `FR <- f`. -/
def State.setFr (s : State) (f : FR) : State := { s with fr := f }

/-- `nextpc` of an instruction of `n` words at PR (00_scope.md R13), modulo 65536 (D16, log 17). -/
def State.nextPc (s : State) (n : Nat) : Word := s.pc + BitVec.ofNat 16 n

/-- `pc <- nextpc` after an instruction of `n` words. -/
def State.advance (s : State) (n : Nat) : State := s.setPc (s.nextPc n)

/-! ### Stack transfers (45_stack.md R181 to R185; the order of transfers is D8, log 11; SP wraps, D16) -/

/-- `SP <- SP - 1; MemWrite(SP, 1, v)`. -/
def State.pushWord (s : State) (v : Word) : State :=
  (s.setSp (s.sp - 1)).write (s.sp - 1) v

/-- `SP <- SP + 1`, the second transfer of POP and RET (C4). -/
def State.dropWord (s : State) : State := s.setSp (s.sp + 1)

/-- One pop into a register (R183): load, then increment SP as the load left it (D14). -/
def State.popReg (s : State) (r : GR) : State :=
  (s.setReg r (s.read s.sp)).dropWord

/-- One push of a register (R184): decrement SP, then store the register as it is at that moment (D14). -/
def State.pushReg (s : State) (r : GR) : State :=
  (s.setSp (s.sp - 1)).write (s.sp - 1) ((s.setSp (s.sp - 1)).reg r)

/-! ### The services of the OS (49_macro_in_out.md R253, R258; 47_other.md R202) -/

/-- Store character codes in ascending words from `buf`, in order, addresses modulo 65536 (R253). -/
def storeChars (buf : Word) : List Byte → Memory → Memory
  | [], m => m
  | c :: cs, m => storeChars (buf + 1) cs (m.write buf (zext16 c))

/-- Service 1 (R253), but for FR: at end of file the length word becomes -1 and nothing else changes; otherwise at most 256
codes of the next record are stored, then their number, and the whole record is consumed (D27, log 21). -/
def serviceIn (s : State) : State :=
  match s.input with
  | [] => s.write (s.reg .gr2) 0xFFFF
  | rec :: rest =>
    let kept := rec.take Config.inputAreaWords
    { s with
      mem := (storeChars (s.reg .gr1) kept s.mem).write (s.reg .gr2) (w16 kept.length)
      input := rest }

/-- The low 8 bits of `n` ascending words from `buf` (R257, R258). -/
def loadChars (m : Memory) (buf : Word) : Nat → List Byte
  | 0 => []
  | n + 1 => (m.read buf).setWidth 8 :: loadChars m (buf + 1) n

/-- Service 2 (R258), but for FR: append one record to OUTPUT; a negative length word is refused (D28, log 22). -/
def serviceOut (s : State) : Except Refusal State :=
  let n := s.read (s.reg .gr2)
  if sint n < 0 then .error (.outLengthNegative n)
  else .ok { s with output := s.output ++ [loadChars s.mem (s.reg .gr1) (uint n)] }

/-- `FR <- (anybit(), anybit(), anybit())`: the next free value (47_other.md R202; log 19). -/
def State.drawFr (s : State) : State :=
  { s with fr := FR.ofBits (Config.freeFlags s.freeCount), freeCount := s.freeCount + 1 }

/-- Taking the trap (R201, R202, R275): the OS performs the service the argument names; no state is saved, no mode changes,
the stack is not used; an argument without a service is refused (log 20). All nine registers are kept (C10). -/
def supervisorCall (arg : Word) (s : State) : Except Refusal State :=
  if uint arg = 1 then .ok (serviceIn s)
  else if uint arg = 2 then serviceOut s
  else .error (.svcArgumentUndefined arg)

/-- Return from the service (R203, R276): FR is unspecified and control is at the instruction after the SVC. -/
def returnFromService (s : State) : State := s.drawFr.advance 2

end Sys2Proof.Machine
end

