-- ==== Sys2Proof/Machine/Operands.lean ====
section
/-! DEFINITION. The operand forms (30_encoding.md R81, R88, R89): the effective address, and the shapes that several
instructions share. Every operand is read from the state before the instruction (D8, log 11). -/

namespace Sys2Proof.Machine

/-- The effective address of `adr [,x]` (R88; D7, log 10): adr, or adr plus the index register modulo 65536. (On the
ill-formed index GR0, which no decoding gives, it is adr plus GR0: log 38.) -/
def effectiveAddress (adr : Word) (x : Option GR) (s : State) : Word :=
  match x with
  | none => adr
  | some g => adr + s.reg g

/-- The storage operand of the form `r,adr[,x]`: the word at the effective address. -/
def memOperand (adr : Word) (x : Option GR) (s : State) : Word :=
  s.read (effectiveAddress adr x s)

/-- Write a result and FR, then go to the next instruction: `x[r] <- v; FR <- f; pc <- nextpc`. -/
def finish (words : Nat) (r : GR) (v : Word) (f : FR) (s : State) : State :=
  ((s.setReg r v).setFr f).advance words

/-- A shift of `r` by the number of bits the effective address specifies (43_shift.md R161). -/
def shiftReg (step : Word → Bool × Word) (r : GR) (adr : Word) (x : Option GR) (s : State) : State :=
  let p := shift step (s.reg r) (uint (effectiveAddress adr x s))
  finish 2 r p.2 (FR.ofResult p.1 p.2) s

/-- A jump: to the effective address when the condition holds, else to the next instruction (44_branch.md R170). -/
def jumpIf (c : Bool) (adr : Word) (x : Option GR) (s : State) : State :=
  if c then s.setPc (effectiveAddress adr x s) else s.advance 2

end Sys2Proof.Machine
end

