-- ==== Sys2Proof/Machine/Arithmetic.lean ====
section
/-! DEFINITION. ADDA, ADDL, SUBA, SUBL (41_arithmetic_logic.md R130 to R139). -/

namespace Sys2Proof.Machine

/-- The common shape of R132 to R139: store the low 16 bits of the exact result `e`, OF from its range, SF and ZF from the
stored word (10_state.md R28, R29; D9, D10, log 12). -/
def arithmetic (words : Nat) (overflow : Int → Bool) (r : GR) (e : Int) (s : State) : State :=
  finish words r (storedResult e) (FR.ofResult (overflow e) (storedResult e)) s

/-- ADDA r,adr[,x] (R132). -/
def execAddaMem (r : GR) (adr : Word) (x : Option GR) (s : State) : Host.Outcome State Fault Refusal :=
  .next (arithmetic 2 arithmeticOverflow r (exactAdda (s.reg r) (memOperand adr x s)) s)

/-- ADDA r1,r2 (R133). -/
def execAddaReg (r1 r2 : GR) (s : State) : Host.Outcome State Fault Refusal :=
  .next (arithmetic 1 arithmeticOverflow r1 (exactAdda (s.reg r1) (s.reg r2)) s)

/-- ADDL r,adr[,x] (R134). -/
def execAddlMem (r : GR) (adr : Word) (x : Option GR) (s : State) : Host.Outcome State Fault Refusal :=
  .next (arithmetic 2 logicalOverflow r (exactAddl (s.reg r) (memOperand adr x s)) s)

/-- ADDL r1,r2 (R135). -/
def execAddlReg (r1 r2 : GR) (s : State) : Host.Outcome State Fault Refusal :=
  .next (arithmetic 1 logicalOverflow r1 (exactAddl (s.reg r1) (s.reg r2)) s)

/-- SUBA r,adr[,x] (R136). -/
def execSubaMem (r : GR) (adr : Word) (x : Option GR) (s : State) : Host.Outcome State Fault Refusal :=
  .next (arithmetic 2 arithmeticOverflow r (exactSuba (s.reg r) (memOperand adr x s)) s)

/-- SUBA r1,r2 (R137). -/
def execSubaReg (r1 r2 : GR) (s : State) : Host.Outcome State Fault Refusal :=
  .next (arithmetic 1 arithmeticOverflow r1 (exactSuba (s.reg r1) (s.reg r2)) s)

/-- SUBL r,adr[,x] (R138). -/
def execSublMem (r : GR) (adr : Word) (x : Option GR) (s : State) : Host.Outcome State Fault Refusal :=
  .next (arithmetic 2 logicalOverflow r (exactSubl (s.reg r) (memOperand adr x s)) s)

/-- SUBL r1,r2 (R139). -/
def execSublReg (r1 r2 : GR) (s : State) : Host.Outcome State Fault Refusal :=
  .next (arithmetic 1 logicalOverflow r1 (exactSubl (s.reg r1) (s.reg r2)) s)

end Sys2Proof.Machine
end

