-- ==== Sys2Proof/Machine/CallReturn.lean ====
section
/-! DEFINITION. CALL, RET (46_call_return.md R190 to R193): FR is kept. -/

namespace Sys2Proof.Machine

/-- The transfers of a call: push the return address, go to the target. The OS enters a program with it too
(70_reset_and_hazards.md R290). -/
def State.callTo (s : State) (target returnTo : Word) : State :=
  (s.pushWord returnTo).setPc target

/-- CALL adr[,x] (R191): the effective address is formed before SP changes (D8, log 11), the return address is that of the
word after the CALL's two words (D15, log 16). -/
def execCall (adr : Word) (x : Option GR) (s : State) : Host.Outcome State Fault Refusal :=
  .next (s.callTo (effectiveAddress adr x s) (s.nextPc 2))

/-- RET (R192). The run ends when the word loaded into PR is OS_RET (70_reset_and_hazards.md R292; D20, log 23). -/
def execRet (s : State) : Host.Outcome State Fault Refusal :=
  .next { (s.setPc (s.read s.sp)).dropWord with ended := decide (s.read s.sp = s.osRet) }

end Sys2Proof.Machine
end

