-- ==== Sys2Proof/Machine/Compare.lean ====
section
/-! DEFINITION. CPA, CPL (42_compare.md R150 to R155): only FR and PR change. -/

namespace Sys2Proof.Machine

/-- The common shape of R152 to R155: FR from the exact numbers (R151), then the next instruction. -/
def compare (words : Nat) (ka kb : Int) (s : State) : State :=
  (s.setFr (FR.ofCompare ka kb)).advance words

/-- CPA r,adr[,x] (R152; signed, D11, log 13). -/
def execCpaMem (r : GR) (adr : Word) (x : Option GR) (s : State) : Host.Outcome State Fault Refusal :=
  .next (compare 2 (sint (s.reg r)) (sint (memOperand adr x s)) s)

/-- CPA r1,r2 (R153; signed, D11, log 13). -/
def execCpaReg (r1 r2 : GR) (s : State) : Host.Outcome State Fault Refusal :=
  .next (compare 1 (sint (s.reg r1)) (sint (s.reg r2)) s)

/-- CPL r,adr[,x] (R154; unsigned, D11, log 13). -/
def execCplMem (r : GR) (adr : Word) (x : Option GR) (s : State) : Host.Outcome State Fault Refusal :=
  .next (compare 2 (uint (s.reg r)) (uint (memOperand adr x s)) s)

/-- CPL r1,r2 (R155; unsigned, D11, log 13). -/
def execCplReg (r1 r2 : GR) (s : State) : Host.Outcome State Fault Refusal :=
  .next (compare 1 (uint (s.reg r1)) (uint (s.reg r2)) s)

end Sys2Proof.Machine
end

