-- ==== Sys2Proof/Machine/Jump.lean ====
section
/-! DEFINITION. JPL, JMI, JNZ, JZE, JOV, JUMP (44_branch.md R170 to R177): only PR changes. -/

namespace Sys2Proof.Machine

/-- JPL adr[,x] (R172). -/
def execJpl (adr : Word) (x : Option GR) (s : State) : Host.Outcome State Fault Refusal :=
  .next (jumpIf s.fr.plus adr x s)

/-- JMI adr[,x] (R173; the mnemonic is C2). -/
def execJmi (adr : Word) (x : Option GR) (s : State) : Host.Outcome State Fault Refusal :=
  .next (jumpIf s.fr.minus adr x s)

/-- JNZ adr[,x] (R174). -/
def execJnz (adr : Word) (x : Option GR) (s : State) : Host.Outcome State Fault Refusal :=
  .next (jumpIf s.fr.nonZero adr x s)

/-- JZE adr[,x] (R175). -/
def execJze (adr : Word) (x : Option GR) (s : State) : Host.Outcome State Fault Refusal :=
  .next (jumpIf s.fr.zero adr x s)

/-- JOV adr[,x] (R176). -/
def execJov (adr : Word) (x : Option GR) (s : State) : Host.Outcome State Fault Refusal :=
  .next (jumpIf s.fr.overflow adr x s)

/-- JUMP adr[,x] (R177). -/
def execJump (adr : Word) (x : Option GR) (s : State) : Host.Outcome State Fault Refusal :=
  .next (jumpIf true adr x s)

end Sys2Proof.Machine
end

