-- ==== Sys2Proof/Machine/LoadStore.lean ====
section
/-! DEFINITION. LD, ST, LAD (40_load_store.md R120 to R124). -/

namespace Sys2Proof.Machine

/-- LD r,adr[,x] (R121). -/
def execLdMem (r : GR) (adr : Word) (x : Option GR) (s : State) : Host.Outcome State Fault Refusal :=
  .next (finish 2 r (memOperand adr x s) (FR.ofResult false (memOperand adr x s)) s)

/-- LD r1,r2 (R122). -/
def execLdReg (r1 r2 : GR) (s : State) : Host.Outcome State Fault Refusal :=
  .next (finish 1 r1 (s.reg r2) (FR.ofResult false (s.reg r2)) s)

/-- ST r,adr[,x] (R123): FR is kept. -/
def execSt (r : GR) (adr : Word) (x : Option GR) (s : State) : Host.Outcome State Fault Refusal :=
  .next ((s.write (effectiveAddress adr x s) (s.reg r)).advance 2)

/-- LAD r,adr[,x] (R124): the address itself; FR is kept (91_not_in_source.md N4, log 27). -/
def execLad (r : GR) (adr : Word) (x : Option GR) (s : State) : Host.Outcome State Fault Refusal :=
  .next ((s.setReg r (effectiveAddress adr x s)).advance 2)

end Sys2Proof.Machine
end

