-- ==== Sys2Proof/Machine/Logical.lean ====
section
/-! DEFINITION. AND, OR, XOR (41_arithmetic_logic.md R140 to R145). -/

namespace Sys2Proof.Machine

/-- The common shape of R140 to R145: the result to `r`, OF 0, SF and ZF from it. -/
def logical (words : Nat) (r : GR) (v : Word) (s : State) : State :=
  finish words r v (FR.ofResult false v) s

/-- AND r,adr[,x] (R140). -/
def execAndMem (r : GR) (adr : Word) (x : Option GR) (s : State) : Host.Outcome State Fault Refusal :=
  .next (logical 2 r (s.reg r &&& memOperand adr x s) s)

/-- AND r1,r2 (R141). -/
def execAndReg (r1 r2 : GR) (s : State) : Host.Outcome State Fault Refusal :=
  .next (logical 1 r1 (s.reg r1 &&& s.reg r2) s)

/-- OR r,adr[,x] (R142). -/
def execOrMem (r : GR) (adr : Word) (x : Option GR) (s : State) : Host.Outcome State Fault Refusal :=
  .next (logical 2 r (s.reg r ||| memOperand adr x s) s)

/-- OR r1,r2 (R143). -/
def execOrReg (r1 r2 : GR) (s : State) : Host.Outcome State Fault Refusal :=
  .next (logical 1 r1 (s.reg r1 ||| s.reg r2) s)

/-- XOR r,adr[,x] (R144). -/
def execXorMem (r : GR) (adr : Word) (x : Option GR) (s : State) : Host.Outcome State Fault Refusal :=
  .next (logical 2 r (s.reg r ^^^ memOperand adr x s) s)

/-- XOR r1,r2 (R145). -/
def execXorReg (r1 r2 : GR) (s : State) : Host.Outcome State Fault Refusal :=
  .next (logical 1 r1 (s.reg r1 ^^^ s.reg r2) s)

end Sys2Proof.Machine
end

