-- ==== Sys2Proof/Machine/Other.lean ====
section
/-! DEFINITION. SVC, NOP (47_other.md R200 to R204). -/

namespace Sys2Proof.Machine

/-- SVC adr[,x] (R201 to R203): the trap with the effective address as argument, then the return from it. -/
def execSvc (adr : Word) (x : Option GR) (s : State) : Host.Outcome State Fault Refusal :=
  match supervisorCall (effectiveAddress adr x s) s with
  | .ok t => .next (returnFromService t)
  | .error r => .refused r

/-- NOP (R204). -/
def execNop (s : State) : Host.Outcome State Fault Refusal :=
  .next (s.advance 1)

end Sys2Proof.Machine
end

