-- ==== Sys2Proof/Machine/Shift.lean ====
section
/-! DEFINITION. SLA, SRA, SLL, SRL (43_shift.md R160 to R166). -/

namespace Sys2Proof.Machine

/-- SLA r,adr[,x] (R162). -/
def execSla (r : GR) (adr : Word) (x : Option GR) (s : State) : Host.Outcome State Fault Refusal :=
  .next (shiftReg stepSla r adr x s)

/-- SRA r,adr[,x] (R163). -/
def execSra (r : GR) (adr : Word) (x : Option GR) (s : State) : Host.Outcome State Fault Refusal :=
  .next (shiftReg stepSra r adr x s)

/-- SLL r,adr[,x] (R164). -/
def execSll (r : GR) (adr : Word) (x : Option GR) (s : State) : Host.Outcome State Fault Refusal :=
  .next (shiftReg stepSll r adr x s)

/-- SRL r,adr[,x] (R165; the mnemonic is C1). -/
def execSrl (r : GR) (adr : Word) (x : Option GR) (s : State) : Host.Outcome State Fault Refusal :=
  .next (shiftReg stepSrl r adr x s)

end Sys2Proof.Machine
end

