-- ==== Sys2Proof/Machine/Stack.lean ====
section
/-! DEFINITION. PUSH, POP, RPUSH, RPOP (45_stack.md R180 to R186): FR is kept. -/

namespace Sys2Proof.Machine

/-- PUSH adr[,x] (R182): the effective address itself, formed before SP changes (D8, log 11). -/
def execPush (adr : Word) (x : Option GR) (s : State) : Host.Outcome State Fault Refusal :=
  .next ((s.pushWord (effectiveAddress adr x s)).advance 2)

/-- POP r (R183). -/
def execPop (r : GR) (s : State) : Host.Outcome State Fault Refusal :=
  .next ((s.popReg r).advance 1)

/-- The order in which RPUSH stores the registers (R184). -/
def rpushOrder : List GR := [.gr1, .gr2, .gr3, .gr4, .gr5, .gr6, .gr7, .gr8]

/-- The order in which RPOP loads the registers (R185). -/
def rpopOrder : List GR := [.gr8, .gr7, .gr6, .gr5, .gr4, .gr3, .gr2, .gr1]

/-- RPUSH (R184): eight pushes, GR1 to GR8. -/
def execRpush (s : State) : Host.Outcome State Fault Refusal :=
  .next ((rpushOrder.foldl State.pushReg s).advance 1)

/-- RPOP (R185): eight pops, GR8 to GR1. -/
def execRpop (s : State) : Host.Outcome State Fault Refusal :=
  .next ((rpopOrder.foldl State.popReg s).advance 1)

end Sys2Proof.Machine
end

