-- ==== Sys2Proof/Machine/Dispatch.lean ====
section
/-! DEFINITION. One arm per instruction: its meaning. -/

namespace Sys2Proof.Machine

def exec (i : Instr) (s : State) : Host.Outcome State Fault Refusal :=
  match i with
  | .nop => Sys2Proof.Machine.execNop s
  | .ldMem r adr x => Sys2Proof.Machine.execLdMem r adr x s
  | .st r adr x => Sys2Proof.Machine.execSt r adr x s
  | .lad r adr x => Sys2Proof.Machine.execLad r adr x s
  | .ldReg r1 r2 => Sys2Proof.Machine.execLdReg r1 r2 s
  | .addaMem r adr x => Sys2Proof.Machine.execAddaMem r adr x s
  | .subaMem r adr x => Sys2Proof.Machine.execSubaMem r adr x s
  | .addlMem r adr x => Sys2Proof.Machine.execAddlMem r adr x s
  | .sublMem r adr x => Sys2Proof.Machine.execSublMem r adr x s
  | .addaReg r1 r2 => Sys2Proof.Machine.execAddaReg r1 r2 s
  | .subaReg r1 r2 => Sys2Proof.Machine.execSubaReg r1 r2 s
  | .addlReg r1 r2 => Sys2Proof.Machine.execAddlReg r1 r2 s
  | .sublReg r1 r2 => Sys2Proof.Machine.execSublReg r1 r2 s
  | .andMem r adr x => Sys2Proof.Machine.execAndMem r adr x s
  | .orMem r adr x => Sys2Proof.Machine.execOrMem r adr x s
  | .xorMem r adr x => Sys2Proof.Machine.execXorMem r adr x s
  | .andReg r1 r2 => Sys2Proof.Machine.execAndReg r1 r2 s
  | .orReg r1 r2 => Sys2Proof.Machine.execOrReg r1 r2 s
  | .xorReg r1 r2 => Sys2Proof.Machine.execXorReg r1 r2 s
  | .cpaMem r adr x => Sys2Proof.Machine.execCpaMem r adr x s
  | .cplMem r adr x => Sys2Proof.Machine.execCplMem r adr x s
  | .cpaReg r1 r2 => Sys2Proof.Machine.execCpaReg r1 r2 s
  | .cplReg r1 r2 => Sys2Proof.Machine.execCplReg r1 r2 s
  | .sla r adr x => Sys2Proof.Machine.execSla r adr x s
  | .sra r adr x => Sys2Proof.Machine.execSra r adr x s
  | .sll r adr x => Sys2Proof.Machine.execSll r adr x s
  | .srl r adr x => Sys2Proof.Machine.execSrl r adr x s
  | .jmi adr x => Sys2Proof.Machine.execJmi adr x s
  | .jnz adr x => Sys2Proof.Machine.execJnz adr x s
  | .jze adr x => Sys2Proof.Machine.execJze adr x s
  | .jump adr x => Sys2Proof.Machine.execJump adr x s
  | .jpl adr x => Sys2Proof.Machine.execJpl adr x s
  | .jov adr x => Sys2Proof.Machine.execJov adr x s
  | .push adr x => Sys2Proof.Machine.execPush adr x s
  | .pop r => Sys2Proof.Machine.execPop r s
  | .rpush => Sys2Proof.Machine.execRpush s
  | .rpop => Sys2Proof.Machine.execRpop s
  | .call adr x => Sys2Proof.Machine.execCall adr x s
  | .ret => Sys2Proof.Machine.execRet s
  | .svc adr x => Sys2Proof.Machine.execSvc adr x s

end Sys2Proof.Machine
end

