-- ==== Sys2Proof/WellFormed.lean ====
section
/-! DEFINITION. Which terms of Instr are instructions: the one restriction the types leave is that the index register is
one of GR1 to GR8 (10_state.md R22, 48_casl2_assembler.md R226). -/

namespace Sys2Proof

/-- R22: "x は, 指標レジスタとして用いる GR を示す。指定できる GR は GR1~GR8"; an omitted x is well-formed. -/
def indexOk : Option GR → Bool
  | some .gr0 => false
  | _ => true

/-- An instruction is well-formed when its index register, where its form has one, may index. -/
def wellFormed : Instr → Bool
  | .nop => true
  | .ldMem _ _ x => indexOk x
  | .st _ _ x => indexOk x
  | .lad _ _ x => indexOk x
  | .ldReg _ _ => true
  | .addaMem _ _ x => indexOk x
  | .subaMem _ _ x => indexOk x
  | .addlMem _ _ x => indexOk x
  | .sublMem _ _ x => indexOk x
  | .addaReg _ _ => true
  | .subaReg _ _ => true
  | .addlReg _ _ => true
  | .sublReg _ _ => true
  | .andMem _ _ x => indexOk x
  | .orMem _ _ x => indexOk x
  | .xorMem _ _ x => indexOk x
  | .andReg _ _ => true
  | .orReg _ _ => true
  | .xorReg _ _ => true
  | .cpaMem _ _ x => indexOk x
  | .cplMem _ _ x => indexOk x
  | .cpaReg _ _ => true
  | .cplReg _ _ => true
  | .sla _ _ x => indexOk x
  | .sra _ _ x => indexOk x
  | .sll _ _ x => indexOk x
  | .srl _ _ x => indexOk x
  | .jmi _ x => indexOk x
  | .jnz _ x => indexOk x
  | .jze _ x => indexOk x
  | .jump _ x => indexOk x
  | .jpl _ x => indexOk x
  | .jov _ x => indexOk x
  | .push _ x => indexOk x
  | .pop _ => true
  | .rpush => true
  | .rpop => true
  | .call _ x => indexOk x
  | .ret => true
  | .svc _ x => indexOk x

/-- The same as a proposition; decidable, since `wellFormed` computes. -/
abbrev WellFormed (i : Instr) : Prop := wellFormed i = true

end Sys2Proof
end

