-- ==== Sys2Proof/Decode.lean ====
section
/-! DEFINITION. Decoding and encoding (30_encoding.md R80 to R92; the layout and the numbers are the spec's own decisions
D2 to D5, logs 8 and 9). -/

namespace Sys2Proof

/-! ### Fields of the first word (R81) -/

/-- `OP = w0[15:8]`. -/
def opField (w0 : Word) : Nat := w0.toNat / 256

/-- `rf = w0[7:4]`. -/
def rField (w0 : Word) : Nat := w0.toNat / 16 % 16

/-- `xf = w0[3:0]`. -/
def xField (w0 : Word) : Nat := w0.toNat % 16

/-- A first word from its three fields (R81). -/
def word0 (op rf xf : Nat) : Word := BitVec.ofNat 16 (op * 256 + rf * 16 + xf)

/-- The number of a general register (R82). -/
def GR.num : GR → Nat
  | .gr0 => 0
  | .gr1 => 1
  | .gr2 => 2
  | .gr3 => 3
  | .gr4 => 4
  | .gr5 => 5
  | .gr6 => 6
  | .gr7 => 7
  | .gr8 => 8

/-- The general register a field names; 9 to 15 name none (R82). -/
def grOf : Nat → Option GR
  | 0 => some .gr0
  | 1 => some .gr1
  | 2 => some .gr2
  | 3 => some .gr3
  | 4 => some .gr4
  | 5 => some .gr5
  | 6 => some .gr6
  | 7 => some .gr7
  | 8 => some .gr8
  | _ => none

/-- The x field: 0 is "no index register", 1 to 8 name one, 9 to 15 are illegal (R82). -/
def indexOf : Nat → Option (Option GR)
  | 0 => some none
  | n + 1 => (grOf (n + 1)).map some

/-- The x field that codes an optional index register (R82). -/
def indexNum : Option GR → Nat
  | none => 0
  | some g => g.num

/-! ### The opcode map (R84) -/

/-- A row of the opcode map: its format (R81) with the instruction that the fields then give. -/
inductive Row where
  | rr (mk : GR → GR → Instr)
  | ra (mk : GR → Word → Option GR → Instr)
  | a (mk : Word → Option GR → Instr)
  | r (mk : GR → Instr)
  | n (i : Instr)

/-- The opcode map of R84: the whole OP byte is matched (R85). -/
def opRow : Nat → Option Row
  | 0x00 => some (.n .nop)
  | 0x10 => some (.ra .ldMem)
  | 0x11 => some (.ra .st)
  | 0x12 => some (.ra .lad)
  | 0x14 => some (.rr .ldReg)
  | 0x20 => some (.ra .addaMem)
  | 0x21 => some (.ra .subaMem)
  | 0x22 => some (.ra .addlMem)
  | 0x23 => some (.ra .sublMem)
  | 0x24 => some (.rr .addaReg)
  | 0x25 => some (.rr .subaReg)
  | 0x26 => some (.rr .addlReg)
  | 0x27 => some (.rr .sublReg)
  | 0x30 => some (.ra .andMem)
  | 0x31 => some (.ra .orMem)
  | 0x32 => some (.ra .xorMem)
  | 0x34 => some (.rr .andReg)
  | 0x35 => some (.rr .orReg)
  | 0x36 => some (.rr .xorReg)
  | 0x40 => some (.ra .cpaMem)
  | 0x41 => some (.ra .cplMem)
  | 0x44 => some (.rr .cpaReg)
  | 0x45 => some (.rr .cplReg)
  | 0x50 => some (.ra .sla)
  | 0x51 => some (.ra .sra)
  | 0x52 => some (.ra .sll)
  | 0x53 => some (.ra .srl)
  | 0x61 => some (.a .jmi)
  | 0x62 => some (.a .jnz)
  | 0x63 => some (.a .jze)
  | 0x64 => some (.a .jump)
  | 0x65 => some (.a .jpl)
  | 0x66 => some (.a .jov)
  | 0x70 => some (.a .push)
  | 0x71 => some (.r .pop)
  | 0x72 => some (.n .rpush)
  | 0x73 => some (.n .rpop)
  | 0x80 => some (.a .call)
  | 0x81 => some (.n .ret)
  | 0xF0 => some (.a .svc)
  | _ => none

/-! ### Decode (R87) -/

/-- Why words are no instruction: the cases of R90, and an instruction cut short. -/
inductive DecodeError where
  /-- R90 (a): OP is not one of the 40 values. -/
  | unknownOpcode (w0 : Word)
  /-- R90 (b): a field used as r, r1 or r2 holds 9 to 15. -/
  | badRegister (w0 : Word)
  /-- R90 (c): the x field of format RA or A holds 9 to 15. -/
  | badIndex (w0 : Word)
  /-- R90 (d): a field the format does not use is not 0. -/
  | unusedFieldNotZero (w0 : Word)
  /-- The list of words ends before the instruction does. -/
  | truncated
deriving DecidableEq, Repr

/-- What a legal first word gives: a whole instruction, or one that waits for its `adr` word. -/
inductive Head where
  | whole (i : Instr)
  | needsAdr (mk : Word → Instr)

/-- The part of R87 that reads the first word alone. -/
def decodeHead (w0 : Word) : Except DecodeError Head :=
  match opRow (opField w0) with
  | none => .error (.unknownOpcode w0)
  | some (.rr mk) =>
    match grOf (rField w0), grOf (xField w0) with
    | some r1, some r2 => .ok (.whole (mk r1 r2))
    | _, _ => .error (.badRegister w0)
  | some (.ra mk) =>
    match grOf (rField w0), indexOf (xField w0) with
    | none, _ => .error (.badRegister w0)
    | _, none => .error (.badIndex w0)
    | some r, some x => .ok (.needsAdr fun adr => mk r adr x)
  | some (.a mk) =>
    if rField w0 ≠ 0 then .error (.unusedFieldNotZero w0)
    else match indexOf (xField w0) with
      | none => .error (.badIndex w0)
      | some x => .ok (.needsAdr fun adr => mk adr x)
  | some (.r mk) =>
    match grOf (rField w0) with
    | none => .error (.badRegister w0)
    | some r => if xField w0 ≠ 0 then .error (.unusedFieldNotZero w0) else .ok (.whole (mk r))
  | some (.n i) =>
    if rField w0 ≠ 0 ∨ xField w0 ≠ 0 then .error (.unusedFieldNotZero w0) else .ok (.whole i)

/-- Decode the instruction at the head of a list of words, with the words that follow it (R87). -/
def decode : List Word → Except DecodeError (Instr × List Word)
  | [] => .error .truncated
  | w0 :: rest =>
    match decodeHead w0 with
    | .error e => .error e
    | .ok (.whole i) => .ok (i, rest)
    | .ok (.needsAdr mk) =>
      match rest with
      | [] => .error .truncated
      | w1 :: rest' => .ok (mk w1, rest')

/-! ### Encode (R81, R84) -/

/-- The words of an instruction, first word first (R81, R84); for a well-formed one these are its words. -/
def encode : Instr → List Word
  | .nop => [word0 0x00 0 0]
  | .ldMem r adr x => [word0 0x10 r.num (indexNum x), adr]
  | .st r adr x => [word0 0x11 r.num (indexNum x), adr]
  | .lad r adr x => [word0 0x12 r.num (indexNum x), adr]
  | .ldReg r1 r2 => [word0 0x14 r1.num r2.num]
  | .addaMem r adr x => [word0 0x20 r.num (indexNum x), adr]
  | .subaMem r adr x => [word0 0x21 r.num (indexNum x), adr]
  | .addlMem r adr x => [word0 0x22 r.num (indexNum x), adr]
  | .sublMem r adr x => [word0 0x23 r.num (indexNum x), adr]
  | .addaReg r1 r2 => [word0 0x24 r1.num r2.num]
  | .subaReg r1 r2 => [word0 0x25 r1.num r2.num]
  | .addlReg r1 r2 => [word0 0x26 r1.num r2.num]
  | .sublReg r1 r2 => [word0 0x27 r1.num r2.num]
  | .andMem r adr x => [word0 0x30 r.num (indexNum x), adr]
  | .orMem r adr x => [word0 0x31 r.num (indexNum x), adr]
  | .xorMem r adr x => [word0 0x32 r.num (indexNum x), adr]
  | .andReg r1 r2 => [word0 0x34 r1.num r2.num]
  | .orReg r1 r2 => [word0 0x35 r1.num r2.num]
  | .xorReg r1 r2 => [word0 0x36 r1.num r2.num]
  | .cpaMem r adr x => [word0 0x40 r.num (indexNum x), adr]
  | .cplMem r adr x => [word0 0x41 r.num (indexNum x), adr]
  | .cpaReg r1 r2 => [word0 0x44 r1.num r2.num]
  | .cplReg r1 r2 => [word0 0x45 r1.num r2.num]
  | .sla r adr x => [word0 0x50 r.num (indexNum x), adr]
  | .sra r adr x => [word0 0x51 r.num (indexNum x), adr]
  | .sll r adr x => [word0 0x52 r.num (indexNum x), adr]
  | .srl r adr x => [word0 0x53 r.num (indexNum x), adr]
  | .jmi adr x => [word0 0x61 0 (indexNum x), adr]
  | .jnz adr x => [word0 0x62 0 (indexNum x), adr]
  | .jze adr x => [word0 0x63 0 (indexNum x), adr]
  | .jump adr x => [word0 0x64 0 (indexNum x), adr]
  | .jpl adr x => [word0 0x65 0 (indexNum x), adr]
  | .jov adr x => [word0 0x66 0 (indexNum x), adr]
  | .push adr x => [word0 0x70 0 (indexNum x), adr]
  | .pop r => [word0 0x71 r.num 0]
  | .rpush => [word0 0x72 0 0]
  | .rpop => [word0 0x73 0 0]
  | .call adr x => [word0 0x80 0 (indexNum x), adr]
  | .ret => [word0 0x81 0 0]
  | .svc adr x => [word0 0xF0 0 (indexNum x), adr]

/-- The words an instruction occupies (R80, R86: two when its operand contains adr). -/
def Instr.words (i : Instr) : Nat := (encode i).length

/-! ### The host's interface to the decoder -/

/-- The two words that a table word of `nbits` bits stands for: bit 0 is the least significant bit of the first word, the
second word is bits 31 to 16, bits from `nbits` up are 0. -/
def tableWords (nbits w : Nat) : Word × Word :=
  (BitVec.ofNat 16 (w % 2 ^ nbits), BitVec.ofNat 16 (w % 2 ^ nbits / 65536))

/-- The instruction the decoder reads from a table word. -/
def decodeTableWord (nbits w : Nat) : Option Instr :=
  match decode [(tableWords nbits w).1, (tableWords nbits w).2] with
  | .ok (i, _) => some i
  | .error _ => none

end Sys2Proof
end

