-- ==== Sys2Proof/Machine/Fetch.lean ====
section
/-! DEFINITION. Fetching and decoding the instruction at PR (30_encoding.md R86, R87), and storing one there. -/

namespace Sys2Proof.Machine

/-- The instruction whose first word is at `a`, read from storage at this moment (20_memory.md R62, D24, log 24): the first
word is decoded before the second is read, and the second of an instruction at 65535 is at 0 (D16, log 17). -/
def fetchAt (s : State) (a : Word) : Except DecodeError Instr :=
  match decodeHead (s.read a) with
  | .error e => .error e
  | .ok (.whole i) => .ok i
  | .ok (.needsAdr mk) => .ok (mk (s.read (a + 1)))

/-- The state in which `w0` and `w1` are the next two words to fetch and a step fetches them: the run goes on, and PR is
not OS_RET (log 7). -/
def placeInstruction (s : State) (w0 w1 : Word) : State :=
  { (s.write s.pc w0).write (s.pc + 1) w1 with
    ended := false
    osRet := if s.osRet = s.pc then s.pc - 1 else s.osRet }

end Sys2Proof.Machine
end

