-- ==== Sys2Proof/Machine/Step.lean ====
section
/-! DEFINITION. One step of the machine: the end of the run (70_reset_and_hazards.md R292), fetch and decode
(30_encoding.md R87), the model fault (60_exceptions.md R271), the instruction. -/

namespace Sys2Proof.Machine

/-- One step: the instruction at PR is fetched, decoded and executed. After the end of the run, and when PR is OS_RET
otherwise than by a RET, no meaning is given (R292; log 23). -/
def step (s : State) : Host.Outcome State Fault Refusal :=
  if s.ended then .refused .runEnded
  else if s.pc = s.osRet then .refused .osReturnNotByRet
  else match fetchAt s s.pc with
    | .error _ => .fault (.illegalInstruction (s.read s.pc) s.pc)
    | .ok i => exec i s

/-- The same state with the instruction of a table word where the next step fetches it; it stands for the OS's load of
the program (R290; log 7). -/
def State.withFetchWord (s : State) (nbits w : Nat) : State :=
  placeInstruction s (tableWords nbits w).1 (tableWords nbits w).2

end Sys2Proof.Machine
end

