-- ==== Sys2Proof/Machine/CharCode.lean ====
section
/-! DEFINITION. The character codes (48_casl2_assembler.md R224, R225). -/

namespace Sys2Proof.Machine

/-- A text or a part of one: its 8-bit codes (R224: the language processor uses the code of JIS X 0201). Log 30. -/
abbrev Text := List Byte

/-- 表11, columns 02 to 07 with rows 0 to 15 in order, the damaged cells as R224 restores them (0x7C and 0x5F: log 30).
Column 07 ends at row 14: 0x7F is no graphic character. A quotation mark and the two braces stand by their numbers. -/
def codeTable : List (Nat × List Char) :=
  [ (2, [' ', '!', Char.ofNat 0x22, '#', '$', '%', '&', Char.ofNat 0x27, '(', ')', '*', '+', ',', '-', '.', '/']),
    (3, ['0', '1', '2', '3', '4', '5', '6', '7', '8', '9', ':', ';', '<', '=', '>', '?']),
    (4, ['@', 'A', 'B', 'C', 'D', 'E', 'F', 'G', 'H', 'I', 'J', 'K', 'L', 'M', 'N', 'O']),
    (5, ['P', 'Q', 'R', 'S', 'T', 'U', 'V', 'W', 'X', 'Y', 'Z', '[', '¥', ']', '^', '_']),
    (6, ['`', 'a', 'b', 'c', 'd', 'e', 'f', 'g', 'h', 'i', 'j', 'k', 'l', 'm', 'n', 'o']),
    (7, ['p', 'q', 'r', 's', 't', 'u', 'v', 'w', 'x', 'y', 'z', Char.ofNat 0x7B, '|', Char.ofNat 0x7D, '~']) ]

/-- The place of a character in a list, counted from `n`. -/
def placeOf (c : Char) : Nat → List Char → Option Nat
  | _, [] => none
  | n, d :: ds => if c = d then some n else placeOf c (n + 1) ds

/-- Look a character up column by column: its code is `16 · column + row` (R224). -/
def codeIn (c : Char) : List (Nat × List Char) → Option Byte
  | [] => none
  | (col, chars) :: rest =>
    match placeOf c 0 chars with
    | some row => some (BitVec.ofNat 8 (16 * col + row))
    | none => codeIn c rest

/-- The code of a character that 表11 shows (R224). -/
def codeOf (c : Char) : Option Byte := codeIn c codeTable

/-- The codes of a string of characters of 表11; a character outside it makes the whole none. -/
def textOf : List Char → Option Text
  | [] => some []
  | c :: cs =>
    match codeOf c, textOf cs with
    | some b, some t => some (b :: t)
    | _, _ => none

/-- The katakana part of the code: A1 to DF (R225). -/
def isKatakana (b : Byte) : Bool := decide (0xA1 ≤ b.toNat ∧ b.toNat ≤ 0xDF)

/-- The graphic characters: codes 21 to 7E and the katakana (R225). -/
def isGraphic (b : Byte) : Bool := decide (0x21 ≤ b.toNat ∧ b.toNat ≤ 0x7E) || isKatakana b

/-- The space, 0x20 (R212, R224). -/
def isSpace (b : Byte) : Bool := b == 0x20

/-- What may stand between the apostrophes of a character constant: the space and the graphic characters (R222, R225). A line
with a katakana in one is refused all the same (refuseKatakana; U24, log 30). -/
def isStringChar (b : Byte) : Bool := isSpace b || isGraphic b

/-- An upper-case letter A to Z. -/
def isUpper (b : Byte) : Bool := decide (0x41 ≤ b.toNat ∧ b.toNat ≤ 0x5A)

/-- A decimal digit 0 to 9. -/
def isDigit (b : Byte) : Bool := decide (0x30 ≤ b.toNat ∧ b.toNat ≤ 0x39)

/-- The value of a decimal digit. -/
def digitValue (b : Byte) : Nat := b.toNat - 0x30

/-- The value of a hexadecimal digit 0 to 9, A to F (R221). -/
def hexValue (b : Byte) : Option Nat :=
  if isDigit b then some (b.toNat - 0x30)
  else if 0x41 ≤ b.toNat ∧ b.toNat ≤ 0x46 then some (b.toNat - 0x37)
  else none

end Sys2Proof.Machine
end

