-- ==== Sys2Proof/Machine/Casl2Syntax.lean ====
section
/-! DEFINITION. The lines of a CASL II program (48_casl2_assembler.md R210 to R231) and what assembling one gives (R232 to
R234). -/

namespace Sys2Proof.Machine

/-- A label (R213), as its codes. -/
abbrev Label := Text

/-- The constants that a literal may hold (R220, R221, R222, R230). -/
inductive Const where
  | dec (n : Int)
  | hex (w : Word)
  | chars (cs : List Byte)
deriving DecidableEq, Repr

/-- A constant of DC: one of those, or an address constant (R219, R223). -/
inductive DcItem where
  | const (c : Const)
  | addr (l : Label)
deriving DecidableEq, Repr

/-- The four ways to write adr (R229). -/
inductive AdrSrc where
  | dec (n : Int)
  | hex (w : Word)
  | label (l : Label)
  | literal (c : Const)
deriving DecidableEq, Repr

/-- What an instruction line says (R214). A machine instruction is kept as the instruction with adr 0, beside the way
its adr is written. -/
inductive Stmt where
  | start (entry : Option Label)
  | finish
  | ds (n : Nat)
  | dc (items : List DcItem)
  | input (area len : Label)
  | output (area len : Label)
  | machine (i : Instr) (adr : Option AdrSrc)
deriving DecidableEq, Repr

/-- An instruction line: its label, if it has one, and what it says (R211). -/
structure SourceLine where
  label : Option Label
  stmt : Stmt
deriving DecidableEq, Repr

/-- Why a text is no program: the cases of R235 (D34, log 35). -/
inductive AsmError where
  | badLabel
  | badLine
  | badOperand
  | unknownMnemonic
  | duplicateLabel
  | startWithoutLabel
  | endWithLabel
  | missingStart
  | missingEnd
  | undefinedStartAddress
  /-- A katakana stands in a character constant (93_implementation_defined.md U24; log 30). -/
  | katakanaInConstant
deriving DecidableEq, Repr

/-- One generated word before the program is placed (R232 to R234). -/
inductive Src where
  /-- A word fixed as written; it is not relocated (R233; D30, log 34). -/
  | fixed (w : Word)
  /-- The address of the word at this offset of the same program (R233). -/
  | here (offset : Nat)
  /-- The address an entry name of another program stands for (R234). -/
  | entry (name : Label)
  /-- A word reserved by DS: nothing is placed there (R218; D21, log 33). -/
  | reserved
deriving DecidableEq, Repr

/-- An assembled program: its entry name, the offset of its execution start address (R216), its words in order with the
literal pool at the end (R231, R232). -/
structure ObjModule where
  name : Label
  start : Nat
  words : List Src
deriving DecidableEq, Repr

end Sys2Proof.Machine
end

