-- ==== Sys2Proof/Machine/Casl2Parse.lean ====
section
/-! DEFINITION. Reading a line of CASL II (48_casl2_assembler.md R210 to R231; 30_encoding.md R93, R94). -/

namespace Sys2Proof.Machine

/-- A text of ASCII characters as codes: the mnemonics of the tables. -/
def ascii (t : String) : Text := t.toList.map fun c => BitVec.ofNat 8 c.toNat

/-- The apostrophe, 0x27. -/
def apostrophe : Byte := 0x27

/-! ### Parts of a line (R211, R212) -/

/-- The text after the blanks at its front. -/
def skipBlank (t : Text) : Text := t.dropWhile isSpace

/-- The text up to the first blank, and the rest from there. -/
def splitBlank (t : Text) : Text × Text := (t.takeWhile (fun b => !isSpace b), t.dropWhile (fun b => !isSpace b))

/-- The operand field: up to the first space outside a character constant (R211). -/
def operandField (quoted : Bool) : Text → Text
  | [] => []
  | b :: t =>
    if isSpace b && !quoted then []
    else b :: operandField (if b = apostrophe then !quoted else quoted) t

/-- Add a character to the first of some texts. -/
def consFirst (b : Byte) : List Text → List Text
  | [] => [[b]]
  | t :: ts => (b :: t) :: ts

/-- The operands: the operand field cut at the commas outside character constants (R93). -/
def splitCommas (quoted : Bool) : Text → List Text
  | [] => [[]]
  | b :: t =>
    if b = 0x2C && !quoted then [] :: splitCommas quoted t
    else consFirst b (splitCommas (if b = apostrophe then !quoted else quoted) t)

/-! ### Labels and registers (R213, R226) -/

/-- GR0 to GR8: the reserved words and the only register names. -/
def parseRegister (t : Text) : Option GR :=
  match t with
  | [g, r, d] => if g = 0x47 && r = 0x52 && isDigit d then grOf (digitValue d) else none
  | _ => none

/-- A label: 1 to 8 characters, an upper-case letter first, then upper-case letters or digits; no register name. -/
def parseLabel (t : Text) : Option Label :=
  match t with
  | [] => none
  | b :: rest =>
    if isUpper b && rest.all (fun c => isUpper c || isDigit c) && decide (t.length ≤ 8)
        && (parseRegister t).isNone
    then some t
    else none

/-- An operand x: GR1 to GR8. -/
def parseIndex (t : Text) : Option GR :=
  match parseRegister t with
  | some .gr0 => none
  | g => g

/-! ### Constants (R218, R220 to R222) -/

/-- A number of one or more decimal digits. -/
def parseDigits (t : Text) : Option Nat :=
  if t.isEmpty then none
  else if t.all isDigit then some (t.foldl (fun n b => 10 * n + digitValue b) 0)
  else none

/-- A decimal constant: digits with an optional minus sign (R220; D31, log 35). -/
def parseDec (t : Text) : Option Int :=
  match t with
  | b :: rest =>
    if b = 0x2D then (parseDigits rest).map (fun n => -(n : Int))
    else (parseDigits t).map (fun n => (n : Int))
  | [] => none

/-- The four digits of a hexadecimal constant (R221). -/
def parseHexDigits (t : Text) : Option Word :=
  match t with
  | [a, b, c, d] =>
    match hexValue a, hexValue b, hexValue c, hexValue d with
    | some a, some b, some c, some d => some (BitVec.ofNat 16 (((a * 16 + b) * 16 + c) * 16 + d))
    | _, _, _, _ => none
  | _ => none

/-- The string of a character constant after its opening apostrophe, with the closing one; two apostrophes in a row
stand for one (R222). -/
def parseChars : Text → Option (List Byte)
  | [] => none
  | [b] => if b = apostrophe then some [] else none
  | b :: c :: t =>
    if b = apostrophe then
      if c = apostrophe then (parseChars t).map (apostrophe :: ·) else none
    else if isStringChar b then (parseChars (c :: t)).map (b :: ·)
    else none

/-- A decimal, hexadecimal or character constant. -/
def parseConst (t : Text) : Option Const :=
  match t with
  | [] => none
  | b :: rest =>
    if b = 0x23 then (parseHexDigits rest).map .hex
    else if b = apostrophe then (parseChars rest).map .chars
    else (parseDec t).map .dec

/-- A constant of DC (R219). -/
def parseDcItem (t : Text) : Option DcItem :=
  match parseConst t with
  | some c => some (.const c)
  | none => (parseLabel t).map .addr

/-- All of a list, or none. -/
def parseAll {α : Type} (f : Text → Option α) : List Text → Option (List α)
  | [] => some []
  | t :: ts =>
    match f t, parseAll f ts with
    | some a, some as => some (a :: as)
    | _, _ => none

/-- An adr: a literal, a decimal or hexadecimal constant, or a label; a character constant without `=` is none (R229,
R230). -/
def parseAdr (t : Text) : Option AdrSrc :=
  match t with
  | [] => none
  | b :: rest =>
    if b = 0x3D then (parseConst rest).map .literal
    else match parseConst t with
      | some (.dec n) => some (.dec n)
      | some (.hex w) => some (.hex w)
      | some (.chars _) => none
      | none => (parseLabel t).map .label

/-! ### Machine instructions (30_encoding.md R84, R93, R94) -/

/-- The forms of each mnemonic, the register form first (R94). -/
def mnemonicRows : List (String × List Row) :=
  [ ("NOP", [.n .nop]), ("LD", [.rr .ldReg, .ra .ldMem]), ("ST", [.ra .st]), ("LAD", [.ra .lad]),
    ("ADDA", [.rr .addaReg, .ra .addaMem]), ("SUBA", [.rr .subaReg, .ra .subaMem]),
    ("ADDL", [.rr .addlReg, .ra .addlMem]), ("SUBL", [.rr .sublReg, .ra .sublMem]) ]
  ++ [ ("AND", [.rr .andReg, .ra .andMem]), ("OR", [.rr .orReg, .ra .orMem]),
    ("XOR", [.rr .xorReg, .ra .xorMem]), ("CPA", [.rr .cpaReg, .ra .cpaMem]),
    ("CPL", [.rr .cplReg, .ra .cplMem]), ("SLA", [.ra .sla]), ("SRA", [.ra .sra]), ("SLL", [.ra .sll]),
    ("SRL", [.ra .srl]) ]
  ++ [ ("JMI", [.a .jmi]), ("JNZ", [.a .jnz]), ("JZE", [.a .jze]), ("JUMP", [.a .jump]), ("JPL", [.a .jpl]),
    ("JOV", [.a .jov]), ("PUSH", [.a .push]), ("POP", [.r .pop]), ("RPUSH", [.n .rpush]),
    ("RPOP", [.n .rpop]), ("CALL", [.a .call]), ("RET", [.n .ret]), ("SVC", [.a .svc]) ]

/-- An index operand that may be omitted: no further operand, or one that is GR1 to GR8. -/
def parseOptIndex : List Text → Option (Option GR)
  | [] => some none
  | [t] => (parseIndex t).map some
  | _ => none

/-- The statement that a form makes of some operands, if they fit it (R93). -/
def instantiate (row : Row) (ops : List Text) : Option Stmt :=
  match row, ops with
  | .n i, [] => some (.machine i none)
  | .r mk, [a] => (parseRegister a).map fun r => .machine (mk r) none
  | .rr mk, [a, b] =>
    match parseRegister a, parseRegister b with
    | some r1, some r2 => some (.machine (mk r1 r2) none)
    | _, _ => none
  | .ra mk, a :: b :: more =>
    match parseRegister a, parseAdr b, parseOptIndex more with
    | some r, some adr, some x => some (.machine (mk r 0 x) (some adr))
    | _, _, _ => none
  | .a mk, a :: more =>
    match parseAdr a, parseOptIndex more with
    | some adr, some x => some (.machine (mk 0 x) (some adr))
    | _, _ => none
  | _, _ => none

/-- The first form that the operands fit. A register name is no adr, so this is the choice of R94. -/
def firstFit (ops : List Text) : List Row → Option Stmt
  | [] => none
  | row :: rows =>
    match instantiate row ops with
    | some st => some st
    | none => firstFit ops rows

/-- The forms of a mnemonic. -/
def rowsOf (mn : Text) : List (String × List Row) → Option (List Row)
  | [] => none
  | (name, rows) :: rest => if ascii name = mn then some rows else rowsOf mn rest

/-! ### Lines (R211, R214 to R219, R251, R256) -/

/-- The statement that the forms of a mnemonic make of its operands. -/
def parseStmt (mn : Text) (ops : List Text) : Except AsmError Stmt :=
  let orBad (o : Option Stmt) : Except AsmError Stmt :=
    match o with
    | some st => .ok st
    | none => .error .badOperand
  if mn = ascii "START" then
    orBad (match ops with
      | [] => some (.start none)
      | [a] => (parseLabel a).map fun l => .start (some l)
      | _ => none)
  else if mn = ascii "END" then orBad (if ops.isEmpty then some .finish else none)
  else if mn = ascii "DS" then
    orBad (match ops with
      | [a] => (parseDigits a).map .ds
      | _ => none)
  else if mn = ascii "DC" then
    orBad (if ops.isEmpty then none else (parseAll parseDcItem ops).map .dc)
  else if mn = ascii "IN" then
    orBad (match ops with
      | [a, b] => match parseLabel a, parseLabel b with
        | some a, some b => some (.input a b)
        | _, _ => none
      | _ => none)
  else if mn = ascii "OUT" then
    orBad (match ops with
      | [a, b] => match parseLabel a, parseLabel b with
        | some a, some b => some (.output a b)
        | _, _ => none
      | _ => none)
  else match rowsOf mn mnemonicRows with
    | none => .error .unknownMnemonic
    | some rows => orBad (firstFit ops rows)

/-- The constants a statement writes out: those of DC, or the one of a literal. -/
def Stmt.constants : Stmt → List Const
  | .dc items => items.flatMap fun
    | .const c => [c]
    | .addr _ => []
  | .machine _ (some (.literal c)) => [c]
  | _ => []

/-- Does a constant hold a katakana? -/
def Const.hasKatakana : Const → Bool
  | .chars cs => cs.any isKatakana
  | _ => false

/-- A statement with a katakana in a character constant is refused (R235 with 93_implementation_defined.md U24, which decides
this against what R225 admits: log 30); every other goes through. -/
def refuseKatakana (st : Stmt) : Except AsmError Stmt :=
  if st.constants.any Const.hasKatakana then .error .katakanaInConstant else .ok st

/-- The statement of a mnemonic with its operands, or why the text is refused (R235). -/
def readStmt (mn : Text) (ops : List Text) : Except AsmError Stmt :=
  match parseStmt mn ops with
  | .error e => .error e
  | .ok st => refuseKatakana st

/-- The operands of a line, from the text after its mnemonic: none when only blanks or a comment follow (R211). What stands
behind the operand field or the semicolon is a comment and is not looked at: R212 leaves the characters of a comment to the
processor, and any 8-bit code in one is the model's choice (DESIGN CHOICE, unsafe, log 39). -/
def parseOperands (t : Text) : List Text :=
  match skipBlank t with
  | [] => []
  | b :: rest => if b = 0x3B then [] else splitCommas false (operandField false (b :: rest))

/-- One line (R211): none for a comment line; START has a label and END has none (R214). A comment may hold any 8-bit code,
control codes and the tab included (R212 leaves it to the processor: DESIGN CHOICE, unsafe, log 39). -/
def parseLine (line : Text) : Except AsmError (Option SourceLine) :=
  if (skipBlank line).head? = some 0x3B then .ok none
  else
    let (lab, afterLab) := splitBlank line
    let (mn, afterMn) := splitBlank (skipBlank afterLab)
    if mn.isEmpty then .error .badLine
    else if !lab.isEmpty && (parseLabel lab).isNone then .error .badLabel
    else match readStmt mn (parseOperands afterMn) with
      | .error e => .error e
      | .ok st =>
        match st with
        | .start _ => if lab.isEmpty then .error .startWithoutLabel else .ok (some ⟨some lab, st⟩)
        | .finish => if lab.isEmpty then .ok (some ⟨none, st⟩) else .error .endWithLabel
        | _ => .ok (some ⟨if lab.isEmpty then none else some lab, st⟩)

/-- The instruction lines of a text; its comment lines generate nothing (R210, R212). A comment line is admitted ahead of the
first START, between an END and the next START, and after the last END as well, where it belongs to no program: R217 does not
say whether such a comment line must be absent (DESIGN CHOICE, unsafe, log 42). -/
def parseText : List Text → Except AsmError (List SourceLine)
  | [] => .ok []
  | t :: ts =>
    match parseLine t, parseText ts with
    | .error e, _ => .error e
    | _, .error e => .error e
    | .ok none, .ok ls => .ok ls
    | .ok (some l), .ok ls => .ok (l :: ls)

end Sys2Proof.Machine
end

