-- ==== Sys2Proof/Machine/Casl2Assemble.lean ====
section
/-! DEFINITION. Assembling CASL II (48_casl2_assembler.md R213 to R235; 49_macro_in_out.md R251, R256). -/

namespace Sys2Proof.Machine

/-! ### Words per line (R232) -/

/-- The words of a constant (R220 to R222). -/
def Const.words : Const → List Word
  | .dec n => [w16 n]
  | .hex w => [w]
  | .chars cs => cs.map zext16

/-- The words of a constant of DC. -/
def DcItem.size : DcItem → Nat
  | .const c => c.words.length
  | .addr _ => 1

/-- The words of IN and OUT (R251, R256; D18, log 29). -/
def macroSize : Nat := 12

/-- How many words a line generates, its literals apart (R232). -/
def Stmt.size : Stmt → Nat
  | .start _ => 0
  | .finish => 0
  | .ds n => n
  | .dc items => (items.map DcItem.size).sum
  | .input _ _ => macroSize
  | .output _ _ => macroSize
  | .machine i _ => i.words

/-- The literals of a line (R230: at most one, in its adr). -/
def Stmt.literals : Stmt → List Const
  | .machine _ (some (.literal c)) => [c]
  | _ => []

/-! ### Labels (R213, R216) -/

/-- Where each label of some lines stands: the offset of the first word of its line, or of the next word when its line
generates none (R213). -/
def labelOffsets (offset : Nat) : List SourceLine → List (Label × Nat)
  | [] => []
  | l :: ls =>
    match l.label with
    | some name => (name, offset) :: labelOffsets (offset + l.stmt.size) ls
    | none => labelOffsets (offset + l.stmt.size) ls

/-- The offset of a label. -/
def offsetOf (name : Label) : List (Label × Nat) → Option Nat
  | [] => none
  | (l, n) :: rest => if l = name then some n else offsetOf name rest

/-- The address word of a label in an operand: an offset of this program, or else the entry name of another (R234). -/
def labelSrc (labels : List (Label × Nat)) (name : Label) : Src :=
  match offsetOf name labels with
  | some n => .here n
  | none => .entry name

/-! ### Generated words -/

/-- The word of an adr (R229); a literal's DC stands at offset `lit` of the program (R230). The literal ='' generates no
word; that its adr is the address of offset `lit` all the same, where the next word of the pool stands or the program ends,
is the model's choice (DESIGN CHOICE, unsafe, log 40). -/
def adrSrc (labels : List (Label × Nat)) (lit : Nat) : AdrSrc → Src
  | .dec n => .fixed (w16 n)
  | .hex w => .fixed w
  | .label l => labelSrc labels l
  | .literal _ => .here lit

/-- The words of a constant of DC (R219). -/
def DcItem.srcs (labels : List (Label × Nat)) : DcItem → List Src
  | .const c => c.words.map .fixed
  | .addr l => [labelSrc labels l]

/-- The words of a machine instruction, its second word, if it has one, from the way its adr is written (R80, R232). -/
def machineSrcs (i : Instr) (adr : Option Src) : List Src :=
  match adr, encode i with
  | some a, [w0, _] => [.fixed w0, a]
  | _, ws => ws.map .fixed

/-- The expansion of IN (service 1) and OUT (service 2): PUSH 0,GR1; PUSH 0,GR2; LAD GR1,area; LAD GR2,length; SVC; POP GR2;
POP GR1 (R251, R256; D18, log 29). -/
def macroSrcs (service : Word) (area len : Src) : List Src :=
  machineSrcs (.push 0 (some .gr1)) none ++ machineSrcs (.push 0 (some .gr2)) none
    ++ machineSrcs (.lad .gr1 0 none) (some area) ++ machineSrcs (.lad .gr2 0 none) (some len)
    ++ machineSrcs (.svc service none) none ++ machineSrcs (.pop .gr2) none ++ machineSrcs (.pop .gr1) none

/-- The words of a line, its first literal at offset `lit` (R215 to R232). -/
def Stmt.srcs (labels : List (Label × Nat)) (lit : Nat) : Stmt → List Src
  | .start _ => []
  | .finish => []
  | .ds n => List.replicate n .reserved
  | .dc items => items.flatMap (DcItem.srcs labels)
  | .input area len => macroSrcs 1 (labelSrc labels area) (labelSrc labels len)
  | .output area len => macroSrcs 2 (labelSrc labels area) (labelSrc labels len)
  | .machine i adr => machineSrcs i (adr.map (adrSrc labels lit))

/-- The words that the literals of a line take in the pool. -/
def Stmt.literalSize (st : Stmt) : Nat := ((st.literals.map Const.words).map List.length).sum

/-- The words of the lines in order (R232), the next literal at offset `lit` of the program; an empty literal leaves `lit`
where it is, so it shares its offset with the literal after it (DESIGN CHOICE, log 40). -/
def bodySrcs (labels : List (Label × Nat)) (lit : Nat) : List SourceLine → List Src
  | [] => []
  | l :: ls => l.stmt.srcs labels lit ++ bodySrcs labels (lit + l.stmt.literalSize) ls

/-- The literal pool: one DC per occurrence, in order, nothing shared (R231; D22, log 32). -/
def literalPool (ls : List SourceLine) : List Src :=
  (ls.flatMap fun l => l.stmt.literals).flatMap fun c => c.words.map .fixed

/-- The words of the lines, the pool apart. -/
def bodySize (ls : List SourceLine) : Nat := (ls.map fun l => l.stmt.size).sum

/-! ### Programs (R214 to R217, R235) -/

/-- Do the names of a list differ? -/
def distinct : List Label → Bool
  | [] => true
  | l :: ls => !ls.contains l && distinct ls

/-- Assemble one program: the entry name and operand of its START line and the lines after it up to END. The START label
stands for the execution start address (R216; D23, log 31), which is the label of START's operand, defined among the lines,
or else offset 0, where the first word generated stands. A program that generates no word has no such word (R216): that its
execution start address is then offset 0, its LOAD_BASE, all the same is the model's choice (DESIGN CHOICE, unsafe, log
43). -/
def assembleProgram (name : Label) (entry : Option Label) (ls : List SourceLine) :
    Except AsmError ObjModule :=
  let labels := labelOffsets 0 ls
  let start : Option Nat :=
    match entry with
    | none => some 0
    | some l => offsetOf l labels
  match start with
  | none => .error .undefinedStartAddress
  | some n =>
    if distinct (name :: labels.map Prod.fst) then
      .ok { name := name, start := n
            words := bodySrcs ((name, n) :: labels) (bodySize ls) ls ++ literalPool ls }
    else .error .duplicateLabel

/-- The lines up to END, and the lines after it. -/
def splitEnd : List SourceLine → Except AsmError (List SourceLine × List SourceLine)
  | [] => .error .missingEnd
  | l :: ls =>
    match l.stmt with
    | .finish => .ok ([], ls)
    | .start _ => .error .missingEnd
    | _ =>
      match splitEnd ls with
      | .error e => .error e
      | .ok (body, rest) => .ok (l :: body, rest)

/-- The programs of a list of lines, each from START to the next END (R214, R217). `fuel` bounds their number. No line at
all gives no program and no error: R235 does not say what a text without instruction lines is (DESIGN CHOICE, unsafe, log
41). -/
def assembleLines (fuel : Nat) (ls : List SourceLine) : Except AsmError (List ObjModule) :=
  match fuel, ls with
  | _, [] => .ok []
  | 0, _ => .error .missingStart
  | n + 1, l :: rest =>
    match l.stmt, l.label with
    | .start entry, some name =>
      match splitEnd rest with
      | .error e => .error e
      | .ok (body, more) =>
        match assembleProgram name entry body, assembleLines n more with
        | .error e, _ => .error e
        | _, .error e => .error e
        | .ok m, .ok ms => .ok (m :: ms)
    | .start _, none => .error .startWithoutLabel
    | _, _ => .error .missingStart

/-- Assemble the programs of a text (R210 to R235). -/
def assemble (text : List Text) : Except AsmError (List ObjModule) :=
  match parseText text with
  | .error e => .error e
  | .ok ls => assembleLines ls.length ls

end Sys2Proof.Machine
end

