-- ==== Sys2Proof/Machine/Launch.lean ====
section
/-! DEFINITION. The OS before the run: relocation, linking, loading, the stack and the entry by CALL
(70_reset_and_hazards.md R290, R291, R293; 48_casl2_assembler.md R233, R234). -/

namespace Sys2Proof.Machine

/-- The launch parameters (00_scope.md R8). -/
structure Launch where
  /-- The programs, each with its LOAD_BASE; the OS starts the first (log 36). -/
  programs : List (Nat × ObjModule)
  /-- STACK_TOP, at most 65536. -/
  stackTop : Nat
  /-- STACK_WORDS. -/
  stackWords : Nat
  /-- OS_RET. -/
  osRet : Word
  /-- INIT_GR, GR0 to GR7; the OS sets GR8. -/
  initGr : GprFile
  /-- INIT_FR. -/
  initFr : FR
  /-- INIT_MEM. -/
  initMem : Memory
  /-- INPUT. -/
  input : List Record
deriving DecidableEq, Repr

/-- Why a launch is refused. -/
inductive LaunchError where
  /-- There is no program to start. -/
  | noProgram
  /-- An entry name that no loaded program defines (R234). -/
  | undefinedEntry (name : Label)
  /-- Two loaded programs have the same entry name (log 36). -/
  | duplicateEntry
  /-- The parameters do not meet R291. -/
  | constraintsNotMet
deriving DecidableEq, Repr

/-- Two ranges of storage, as first address and number of words, have no word in common. -/
def disjoint (a b : Nat × Nat) : Bool :=
  decide (a.2 = 0 ∨ b.2 = 0 ∨ a.1 + a.2 ≤ b.1 ∨ b.1 + b.2 ≤ a.1)

/-- The ranges that R291 (c) asks to be disjoint: the programs, the stack area, OS_RET. -/
def Launch.ranges (l : Launch) : List (Nat × Nat) :=
  (l.programs.map fun p => (p.1, p.2.words.length))
    ++ [(l.stackTop - l.stackWords, l.stackWords), (l.osRet.toNat, 1)]

/-- Are the ranges of a list pairwise disjoint? -/
def pairwiseDisjoint : List (Nat × Nat) → Bool
  | [] => true
  | r :: rs => rs.all (disjoint r) && pairwiseDisjoint rs

/-- The constraints of R291 (D19, log 36), and that INIT_MEM has storage's canonical form. (d) holds since `osRet` is one
field that no step changes. -/
def Launch.ok (l : Launch) : Bool :=
  (l.programs.all fun p => decide (p.1 + p.2.words.length ≤ 65536))
    && decide (1 ≤ l.stackWords ∧ l.stackWords ≤ l.stackTop ∧ l.stackTop ≤ 65536)
    && pairwiseDisjoint l.ranges
    && decide (Memory.wf l.initMem)

/-- The real address of an entry name: the execution start address of the program that has it (R216, R234: LINK). -/
def linkName (name : Label) : List (Nat × ObjModule) → Option Word
  | [] => none
  | (base, m) :: rest => if m.name = name then some (w16 (base + m.start)) else linkName name rest

/-- The word to place for a generated word, at its real value (R233, R234); nothing is placed in a DS area. -/
def relocate (programs : List (Nat × ObjModule)) (base : Nat) : Src → Except LaunchError (Option Word)
  | .fixed w => .ok (some w)
  | .here n => .ok (some (w16 (base + n)))
  | .entry name =>
    match linkName name programs with
    | some w => .ok (some w)
    | none => .error (.undefinedEntry name)
  | .reserved => .ok none

/-- Place the words of a program in ascending words from `a` (R232). -/
def loadWords (programs : List (Nat × ObjModule)) (base : Nat) (a : Word) :
    List Src → Memory → Except LaunchError Memory
  | [], m => .ok m
  | x :: xs, m =>
    match relocate programs base x with
    | .error e => .error e
    | .ok none => loadWords programs base (a + 1) xs m
    | .ok (some w) => loadWords programs base (a + 1) xs (m.write a w)

/-- Place every program at its base. -/
def loadAll (programs : List (Nat × ObjModule)) : List (Nat × ObjModule) → Memory → Except LaunchError Memory
  | [], m => .ok m
  | (base, p) :: rest, m =>
    match loadWords programs base (w16 base) p.words m with
    | .error e => .error e
    | .ok m' => loadAll programs rest m'

/-- Steps 2 and 3 of R290: SP at STACK_TOP, then the OS's CALL of the execution start address `e`, whose return address
is OS_RET. -/
def Launch.enter (l : Launch) (m : Memory) (e : Word) : State :=
  let s : State :=
    { gr := l.initGr, pc := l.osRet, fr := l.initFr, mem := m, input := l.input, output := []
      osRet := l.osRet, ended := false, freeCount := 0 }
  (s.setSp (w16 l.stackTop)).callTo e l.osRet

/-- The state when the first instruction of the first program is fetched (R290, R36). -/
def Launch.start (l : Launch) : Except LaunchError State :=
  if l.ok then
    match l.programs with
    | [] => .error .noProgram
    | (base, p) :: _ =>
      if !distinct (l.programs.map fun q => q.2.name) then .error .duplicateEntry
      else match loadAll l.programs l.programs l.initMem with
      | .error e => .error e
      | .ok m => .ok (l.enter m (w16 (base + p.start)))
  else .error .constraintsNotMet

end Sys2Proof.Machine
end

