-- ==== Sys2Proof/Safety.lean ====
section
/-! DEFINITION. What a safe run is, and the words in which statements about the machine are put. -/

namespace Sys2Proof.Machine

/-- The invariant of the machine: storage is in canonical form, and a run that has ended has PR at OS_RET
(70_reset_and_hazards.md R292). -/
def Inv (s : State) : Prop := Memory.wf s.mem ∧ (s.ended = true → s.pc = s.osRet)

/-- The next step fetches an instruction: the run has not ended and PR is not OS_RET (R292). -/
def Running (s : State) : Prop := s.ended = false ∧ s.pc ≠ s.osRet

/-- A step of the machine does not stop with a fault. -/
def NoFault (s : State) : Prop := ∀ f, step s ≠ .fault f

/-- The states some number of steps reaches. -/
inductive Reaches (s : State) : State → Prop where
  | here : Reaches s s
  | next {t u : State} : Reaches s t → step t = .next u → Reaches s u

/-- A safe run: no state it reaches faults. -/
def Safe (s : State) : Prop := ∀ t, Reaches s t → NoFault t

/-- A run that ends normally (R292). -/
def EndsNormally (s : State) : Prop := ∃ t, Reaches s t ∧ t.ended = true

/-! ### Kinds of instruction -/

/-- The conditional jumps (44_branch.md R171). -/
def conditionalJump : Instr → Bool
  | .jpl _ _ | .jmi _ _ | .jnz _ _ | .jze _ _ | .jov _ _ => true
  | _ => false

/-- SVC. -/
def isSvc : Instr → Bool
  | .svc _ _ => true
  | _ => false

/-- The instructions that read a word of storage as data (20_memory.md R53), SVC apart. -/
def readsStorage : Instr → Bool
  | .ldMem _ _ _ | .addaMem _ _ _ | .addlMem _ _ _ | .subaMem _ _ _ | .sublMem _ _ _
  | .andMem _ _ _ | .orMem _ _ _ | .xorMem _ _ _ | .cpaMem _ _ _ | .cplMem _ _ _
  | .pop _ | .rpop | .ret => true
  | _ => false

/-- The instructions that write a word of storage (20_memory.md R53), SVC apart. -/
def writesStorage : Instr → Bool
  | .st _ _ _ | .push _ _ | .rpush | .call _ _ => true
  | _ => false

/-- The register that LD, or an arithmetic or logical instruction, leaves its result in. -/
def resultRegister : Instr → Option GR
  | .ldMem r _ _ | .addaMem r _ _ | .addlMem r _ _ | .subaMem r _ _ | .sublMem r _ _
  | .andMem r _ _ | .orMem r _ _ | .xorMem r _ _ => some r
  | .ldReg r _ | .addaReg r _ | .addlReg r _ | .subaReg r _ | .sublReg r _
  | .andReg r _ | .orReg r _ | .xorReg r _ => some r
  | _ => none

/-- The two operands that a compare reads as numbers, signed for CPA and unsigned for CPL (42_compare.md R151). -/
def comparedNumbers (s : State) : Instr → Option (Int × Int)
  | .cpaMem r adr x => some (sint (s.reg r), sint (s.read (effectiveAddress adr x s)))
  | .cpaReg r1 r2 => some (sint (s.reg r1), sint (s.reg r2))
  | .cplMem r adr x => some (uint (s.reg r), uint (s.read (effectiveAddress adr x s)))
  | .cplReg r1 r2 => some (uint (s.reg r1), uint (s.reg r2))
  | _ => none

/-- The general registers that an instruction may write (10_state.md R23). -/
def writtenRegisters : Instr → List GR
  | .ldMem r _ _ | .lad r _ _ | .addaMem r _ _ | .addlMem r _ _ | .subaMem r _ _ | .sublMem r _ _
  | .andMem r _ _ | .orMem r _ _ | .xorMem r _ _
  | .sla r _ _ | .sra r _ _ | .sll r _ _ | .srl r _ _ => [r]
  | .ldReg r _ | .addaReg r _ | .addlReg r _ | .subaReg r _ | .sublReg r _
  | .andReg r _ | .orReg r _ | .xorReg r _ => [r]
  | .pop r => [r, .gr8]
  | .push _ _ | .rpush | .call _ _ | .ret => [.gr8]
  | .rpop => [.gr1, .gr2, .gr3, .gr4, .gr5, .gr6, .gr7, .gr8]
  | _ => []

/-! ### Frames -/

/-- Every word of storage reads as before. -/
def SameStorage (s t : State) : Prop := ∀ a, t.read a = s.read a

/-- Every word of storage but the one at `a` reads as before. -/
def SameStorageBut (a : Word) (s t : State) : Prop := ∀ b, b ≠ a → t.read b = s.read b

/-- Every general register but those listed is as before. -/
def SameRegsBut (rs : List GR) (s t : State) : Prop := ∀ g, g ∉ rs → t.reg g = s.reg g

/-- What only the host's side and the run itself hold is as before: INPUT, OUTPUT, OS_RET, the end of the run, the draws. -/
def SameHost (s t : State) : Prop :=
  t.input = s.input ∧ t.output = s.output ∧ t.osRet = s.osRet ∧ t.ended = s.ended
    ∧ t.freeCount = s.freeCount

/-- FR with OF as given and SF, ZF from a result word (R28, R29). -/
def flagsOf (o : Bool) (v : Word) : FR := ⟨o, v.getLsbD 15, decide (v = 0)⟩

/-- An instruction of `n` words that changes FR to `f`, and nothing else but PR. -/
def WritesFlags (n : Nat) (f : FR) (s t : State) : Prop :=
  t.fr = f ∧ t.pc = s.pc + BitVec.ofNat 16 n ∧ SameRegsBut [] s t ∧ SameStorage s t ∧ SameHost s t

/-- An instruction of `n` words that writes `v` to `r` and `f` to FR, and changes nothing else but PR. -/
def WritesRegister (n : Nat) (r : GR) (v : Word) (f : FR) (s t : State) : Prop :=
  t.reg r = v ∧ SameRegsBut [r] s t ∧ t.fr = f ∧ t.pc = s.pc + BitVec.ofNat 16 n
    ∧ SameStorage s t ∧ SameHost s t

end Sys2Proof.Machine
end

