-- ==== Sys2Proof/Certificates/Slice0/Obligations.lean ====
section
/-! DEFINITION. The statements about the machine, for the provers. Their numbers, titles and grounds are in OBLIGATIONS.json. -/

open Sys2Proof Sys2Proof.Machine

/-- O1, tier 1. Words that 30_encoding.md R96 and 95_test_vectors.md 2.1 write out, at least one of each family,
decode to the instruction written beside them, and seven illegal first words are rejected for the reason R90
gives. The layout and the numbers are the spec's own decisions D2 to D5 (logs 8 and 9). -/
def Obligations.SpecWordsDecodeToTheirInstructions : Prop :=
  decode [0x1012, 0x1234] = .ok (.ldMem .gr1 0x1234 (some .gr2), [])
  ∧ decode [0x1483] = .ok (.ldReg .gr8 .gr3, [])
  ∧ decode [0x1100, 0x0064] = .ok (.st .gr0 100 none, [])
  ∧ decode [0x1270, 0xFFFF] = .ok (.lad .gr7 0xFFFF none, [])
  ∧ decode [0x2411] = .ok (.addaReg .gr1 .gr1, [])
  ∧ decode [0x2358, 0x0002] = .ok (.sublMem .gr5 2 (some .gr8), [])
  ∧ decode [0x3422] = .ok (.andReg .gr2 .gr2, [])
  ∧ decode [0x4120, 0x3000] = .ok (.cplMem .gr2 0x3000 none, [])
  ∧ decode [0x5220, 0x0004] = .ok (.sll .gr2 4 none, [])
  ∧ decode [0x6500, 0x2000] = .ok (.jpl 0x2000 none, [])
  ∧ decode [0x7001, 0x0000] = .ok (.push 0 (some .gr1), [])
  ∧ decode [0x7180] = .ok (.pop .gr8, [])
  ∧ decode [0x7200] = .ok (.rpush, []) ∧ decode [0x7300] = .ok (.rpop, [])
  ∧ decode [0x8003, 0x0100] = .ok (.call 0x0100 (some .gr3), [])
  ∧ decode [0x8100] = .ok (.ret, [])
  ∧ decode [0xF000, 0x0002] = .ok (.svc 2 none, [])
  ∧ decode [0x0000] = .ok (.nop, [])
  ∧ decode [0x1300] = .error (.unknownOpcode 0x1300)
  ∧ decode [0x1090] = .error (.badRegister 0x1090)
  ∧ decode [0x100A] = .error (.badIndex 0x100A)
  ∧ decode [0x6410] = .error (.unusedFieldNotZero 0x6410)
  ∧ decode [0x7101] = .error (.unusedFieldNotZero 0x7101)
  ∧ decode [0x8101] = .error (.unusedFieldNotZero 0x8101)
  ∧ decode [0xFFFF] = .error (.unknownOpcode 0xFFFF)

/-- O2, tier 3. For every well-formed instruction and whatever words follow, decoding its encoding gives that
instruction and leaves the following words. (The encoding is the spec's own decision D2 to D4, log 8.) -/
def Obligations.DecodingAnEncodingGivesTheInstruction : Prop :=
  ∀ (i : Instr) (rest : List Word), WellFormed i → decode (encode i ++ rest) = .ok (i, rest)

/-- O3, tier 3. Whenever a list of words decodes, the instruction is well-formed and the words are its encoding
followed by the rest: each instruction has one spelling and the decoder drops no bit. (The encoding is the
spec's own decision D2 to D5, logs 8 and 9.) -/
def Obligations.DecodedWordsAreTheEncoding : Prop :=
  ∀ (ws : List Word) (i : Instr) (rest : List Word),
    decode ws = .ok (i, rest) → WellFormed i ∧ ws = encode i ++ rest

/-- O4, tier 2. A first word is rejected exactly when it is not one of: an OP of format RA or RR with both
register fields 0 to 8; an OP of format A with r field 0 and x field 0 to 8; 0x71 with r field 0 to 8 and x
field 0; 0x00, 0x72, 0x73, 0x81 with both fields 0. (The field layout, the opcode numbers, of which 0x72 and
0x73 are the spec's invention, and the list are the spec's own decisions D2, D3 and D5, logs 8 and 9.) -/
def Obligations.IllegalFirstWordsAreExactlyThoseOfTheList : Prop :=
  ∀ w : Word, (∃ e, decodeHead w = .error e) ↔ ¬
    ((opField w ∈ [0x10, 0x11, 0x12, 0x14, 0x20, 0x21, 0x22, 0x23, 0x24, 0x25, 0x26, 0x27, 0x30, 0x31,
        0x32, 0x34, 0x35, 0x36, 0x40, 0x41, 0x44, 0x45, 0x50, 0x51, 0x52, 0x53]
        ∧ rField w ≤ 8 ∧ xField w ≤ 8)
      ∨ (opField w ∈ [0x61, 0x62, 0x63, 0x64, 0x65, 0x66, 0x70, 0x80, 0xF0]
        ∧ rField w = 0 ∧ xField w ≤ 8)
      ∨ (opField w = 0x71 ∧ rField w ≤ 8 ∧ xField w = 0)
      ∨ (opField w ∈ [0x00, 0x72, 0x73, 0x81] ∧ rField w = 0 ∧ xField w = 0))

/-- O5, tier 1. When the run has not ended, PR is not OS_RET, and the words at PR and PR + 1 decode to an
instruction, the step at that state is the execution of that instruction at that state: the meanings
themselves move PR (R13, R24, R25, R87). -/
def Obligations.StepRunsTheDecodedInstruction : Prop :=
  ∀ (s : State) (i : Instr) (rest : List Word), Running s →
    decode [s.read s.pc, s.read (s.pc + 1)] = .ok (i, rest) → step s = exec i s

/-- O6, tier 2. A step faults exactly when the run goes on, PR is not OS_RET and the decoder rejects the word at
PR; the fault is IllegalInstruction with that word and the address PR. No instruction itself faults. (The
illegal words and the fault are the spec's own decisions D5 and D6, log 9. That PR at OS_RET, or a run that
has ended, is refused also over an illegal word rests on D20 and, for the ended run, on the model's own
choice, log 23.) -/
def Obligations.FaultExactlyOnAnIllegalWord : Prop :=
  ∀ (s : State) (f : Fault), step s = .fault f ↔
    (Running s ∧ (∃ e, decodeHead (s.read s.pc) = .error e)
      ∧ f = .illegalInstruction (s.read s.pc) s.pc)

/-- O7, tier 1. A state whose run has ended answers the refusal runEnded; a state that has not ended with PR at
OS_RET answers the refusal osReturnNotByRet. (The spec's own decision D20; the refusal after the end is the
model's choice, log 23.) -/
def Obligations.NothingRunsAfterTheEndOrAtOsReturn : Prop :=
  (∀ s : State, s.ended = true → step s = .refused .runEnded)
  ∧ ∀ s : State, s.ended = false → s.pc = s.osRet → step s = .refused .osReturnNotByRet

/-- O8, tier 3. From every state with storage in canonical form in which an ended run has PR at OS_RET, a step
that answers a next state answers one of the same kind. (Canonical form: logs 1 and 2; the end of the run:
D20, log 23.) -/
def Obligations.EveryStepKeepsTheInvariant : Prop :=
  ∀ s t : State, Inv s → step s = .next t → Inv t

/-- O9, tier 1. State.reset has storage in canonical form and its run has not ended. (The reset state is the
model's choice where the spec has parameters, logs 2 to 6.) -/
def Obligations.ResetMeetsTheInvariant : Prop :=
  Inv State.reset

/-- O10, tier 2. No step changes OS_RET: R291 (d). (The rule is the spec's own decision D19, log 36.) -/
def Obligations.NoStepChangesOsReturn : Prop :=
  ∀ s t : State, step s = .next t → t.osRet = s.osRet

/-- O11, tier 2. After a step that answers a next state, the run has ended exactly when the instruction at PR was
RET and the word on top of the stack was OS_RET; then PR is OS_RET and SP is one more. (The spec's own
decision D20, log 23.) -/
def Obligations.TheRunEndsExactlyWhenRetLoadsOsReturn : Prop :=
  ∀ s t : State, step s = .next t →
    (t.ended = true ↔ fetchAt s s.pc = .ok .ret ∧ s.read s.sp = s.osRet)
    ∧ (t.ended = true → t.pc = s.osRet ∧ t.sp = s.sp + 1)

/-- O12, tier 2. For every instruction that is not SVC and every state, execution answers a next state; no
instruction at all answers a fault. (R274: an instruction that passes decode completes; the refusals of SVC
are D17, D28.) -/
def Obligations.EveryInstructionButSvcCompletes : Prop :=
  (∀ (i : Instr) (s : State), isSvc i = false → ∃ t, exec i s = .next t)
  ∧ ∀ (i : Instr) (s : State) (f : Fault), exec i s ≠ .fault f

/-- O13, tier 1. State.reset has SP = STACK_TOP - 1, the word at SP is OS_RET, OUTPUT is empty and the run has not
ended (R36); and, by the model's choice, PR 0x1000, STACK_TOP 0xF000, OS_RET 0xFF00 (log 3), GR0 to GR7 zero
(log 4), FR 000 (log 5), no input record (log 6), every other word 0 (log 2). -/
def Obligations.ResetIsAProgramStartState : Prop :=
  State.reset.sp = Config.stackTop - 1 ∧ State.reset.read State.reset.sp = State.reset.osRet
  ∧ State.reset.output = [] ∧ State.reset.ended = false
  ∧ State.reset.pc = 0x1000 ∧ Config.stackTop = 0xF000 ∧ State.reset.osRet = 0xFF00
  ∧ (∀ g, g ≠ .gr8 → State.reset.reg g = 0) ∧ State.reset.fr = ⟨false, false, false⟩
  ∧ State.reset.input = []
  ∧ ∀ a, a ≠ 0xEFFF → State.reset.read a = 0

/-- O14, tier 2. When a launch succeeds there is a first program; PR is its LOAD_BASE plus its execution start
offset, SP is STACK_TOP - 1 modulo 65536, the word at SP is OS_RET, GR0 to GR7 and FR are the launch
parameters, INPUT is the parameter, OUTPUT is empty, the run has not ended, and the invariant holds. (The
state at program start is the spec's own decision D19. That the first program of the list is the one started
is the model's choice, log 36; canonical form: logs 1 and 2.) -/
def Obligations.LaunchEntersTheFirstProgram : Prop :=
  ∀ (l : Launch) (s : State), l.start = .ok s →
    ∃ base p rest, l.programs = (base, p) :: rest
      ∧ s.pc = w16 (base + p.start)
      ∧ s.sp = w16 l.stackTop - 1 ∧ s.read s.sp = l.osRet
      ∧ (∀ g, g ≠ .gr8 → s.reg g = l.initGr.get g) ∧ s.fr = l.initFr
      ∧ s.input = l.input ∧ s.output = [] ∧ s.osRet = l.osRet ∧ s.ended = false ∧ Inv s

/-- O15, tier 2. When a launch succeeds, word n of every program stands at LOAD_BASE + n: a word fixed as written
is unchanged; the address of the word at offset k of the same program is LOAD_BASE + k; the address of an
entry name is the LOAD_BASE plus the execution start offset of the program that has that entry name, and there
is such a program; a word reserved by DS holds what INIT_MEM holds. Every word outside the programs other than
the one at SP holds what INIT_MEM holds. The disjointness R291 asks for is what makes it so. (R233, R234.
Launch D19, DS areas D21, which words are relocated D30, an entry name stands for the execution start address
D23: logs 31, 33, 34, 36. That two programs of one entry name are refused is the model's choice, log 36.) -/
def Obligations.LaunchPlacesEveryWord : Prop :=
  ∀ (l : Launch) (s : State), l.start = .ok s →
    (∀ (base : Nat) (p : ObjModule), (base, p) ∈ l.programs →
      ∀ (n : Nat) (h : n < p.words.length),
        (∀ w, p.words[n] = .fixed w → s.read (w16 (base + n)) = w)
        ∧ (∀ k, p.words[n] = .here k → s.read (w16 (base + n)) = w16 (base + k))
        ∧ (∀ name, p.words[n] = .entry name →
            (∃ b q, (b, q) ∈ l.programs ∧ q.name = name)
            ∧ ∀ b q, (b, q) ∈ l.programs → q.name = name → s.read (w16 (base + n)) = w16 (b + q.start))
        ∧ (p.words[n] = .reserved → s.read (w16 (base + n)) = l.initMem.read (w16 (base + n))))
    ∧ ∀ a : Word, a ≠ s.sp →
        (∀ base p, (base, p) ∈ l.programs → a.toNat < base ∨ base + p.words.length ≤ a.toNat) →
        s.read a = l.initMem.read a

/-- O16, tier 1. Without an index register the effective address is adr; with one its unsigned value is the sum of
the unsigned values of adr and the register modulo 65536 (R88; the spec's own decision D7, log 10). The index
registers of the spec are GR1 to GR8 (R22); that the ill-formed index GR0, which no word encodes, is added too
is the model's choice, log 38. -/
def Obligations.EffectiveAddressIsAdrPlusIndex : Prop :=
  ∀ (adr : Word) (g : GR) (s : State),
    effectiveAddress adr none s = adr
    ∧ uint (effectiveAddress adr (some g) s) = (uint adr + uint (s.reg g)) % 65536

/-- O17, tier 1. The nine registers GR0 to GR8 are all the general registers, and loading any of them from any
other makes it read as the value loaded and leaves every other general register as it was: none, GR0 included,
is hardwired. -/
def Obligations.EveryRegisterReadsBackWhatWasWritten : Prop :=
  (∀ g : GR, g ∈ [.gr0, .gr1, .gr2, .gr3, .gr4, .gr5, .gr6, .gr7, .gr8])
  ∧ [GR.gr0, .gr1, .gr2, .gr3, .gr4, .gr5, .gr6, .gr7, .gr8].Nodup
  ∧ ∀ (r1 r2 : GR) (s : State), ∃ t, exec (.ldReg r1 r2) s = .next t
      ∧ t.reg r1 = s.reg r2 ∧ ∀ g, g ≠ r1 → t.reg g = s.reg g

/-- O18, tier 1. LD r,adr[,x] (R121) answers a next state in which r is the word at the effective address, OF is
0, SF and ZF are those of the word, PR is two on, and every other register, all storage and the host's side
are as before; LD r1,r2 (R122) likewise from r2 with PR one on. (Effective address D7, length D4, wrap D16:
logs 8, 10, 17.) -/
def Obligations.LdLoadsAndSetsFlags : Prop :=
  (∀ (r : GR) (adr : Word) (x : Option GR) (s : State), ∃ t, exec (.ldMem r adr x) s = .next t
    ∧ WritesRegister 2 r (s.read (effectiveAddress adr x s))
        (flagsOf false (s.read (effectiveAddress adr x s))) s t)
  ∧ ∀ (r1 r2 : GR) (s : State), ∃ t, exec (.ldReg r1 r2) s = .next t
    ∧ WritesRegister 1 r1 (s.reg r2) (flagsOf false (s.reg r2)) s t

/-- O19, tier 1. ST r,adr[,x] (R123) answers a next state in which the word at the effective address is r, every
other word of storage, every register, FR and the host's side are as before, and PR is two on. (D4, D7, D16:
logs 8, 10, 17.) -/
def Obligations.StStoresOneWord : Prop :=
  ∀ (r : GR) (adr : Word) (x : Option GR) (s : State), ∃ t, exec (.st r adr x) s = .next t
    ∧ t.read (effectiveAddress adr x s) = s.reg r
    ∧ SameStorageBut (effectiveAddress adr x s) s t
    ∧ SameRegsBut [] s t ∧ t.fr = s.fr ∧ t.pc = s.pc + 2 ∧ SameHost s t

/-- O20, tier 1. LAD r,adr[,x] (R124) answers a next state in which r is the effective address, formed from the
registers before it, FR is kept (the blank cell read as the mark above it, log 27), PR is two on, and all else
is as before. (D4, D7, D16: logs 8, 10, 17.) -/
def Obligations.LadLoadsTheAddressItself : Prop :=
  ∀ (r : GR) (adr : Word) (x : Option GR) (s : State), ∃ t, exec (.lad r adr x) s = .next t
    ∧ WritesRegister 2 r (effectiveAddress adr x s) s.fr s t

/-- O21, tier 2. ADDA, storage and register form (R132, R133), answers a next state in which r is the sum of the
operands as 16-bit words, which is the low 16 bits of the exact signed sum; OF is 1 exactly when that exact
sum is outside -32768 to 32767; SF and ZF are those of the stored word; PR is past the instruction; all else
is as before. (D9, D10: log 12; D4, D7, D16: logs 8, 10, 17.) -/
def Obligations.AddaStoresTheSumAndSetsFlags : Prop :=
  (∀ (r : GR) (adr : Word) (x : Option GR) (s : State) (a b : Word),
    a = s.reg r → b = s.read (effectiveAddress adr x s) →
    ∃ t, exec (.addaMem r adr x) s = .next t ∧ WritesRegister 2 r (a + b) (flagsOf (decide (sint a + sint b < -32768 ∨ sint a + sint b > 32767)) (a + b)) s t)
  ∧ (∀ (r1 r2 : GR) (s : State) (a b : Word), a = s.reg r1 → b = s.reg r2 →
    ∃ t, exec (.addaReg r1 r2) s = .next t ∧ WritesRegister 1 r1 (a + b) (flagsOf (decide (sint a + sint b < -32768 ∨ sint a + sint b > 32767)) (a + b)) s t)
  ∧ ∀ a b : Word, a + b = w16 (sint a + sint b)

/-- O22, tier 2. ADDL, storage and register form (R134, R135): as ADDA, but OF is 1 exactly when the exact
unsigned sum is above 65535. (D9, D10: log 12; D4, D7, D16: logs 8, 10, 17.) -/
def Obligations.AddlStoresTheSumAndSetsFlags : Prop :=
  (∀ (r : GR) (adr : Word) (x : Option GR) (s : State) (a b : Word),
    a = s.reg r → b = s.read (effectiveAddress adr x s) →
    ∃ t, exec (.addlMem r adr x) s = .next t ∧ WritesRegister 2 r (a + b) (flagsOf (decide (uint a + uint b > 65535)) (a + b)) s t)
  ∧ (∀ (r1 r2 : GR) (s : State) (a b : Word), a = s.reg r1 → b = s.reg r2 →
    ∃ t, exec (.addlReg r1 r2) s = .next t ∧ WritesRegister 1 r1 (a + b) (flagsOf (decide (uint a + uint b > 65535)) (a + b)) s t)
  ∧ ∀ a b : Word, a + b = w16 ((uint a : Int) + uint b)

/-- O23, tier 2. SUBA, storage and register form (R136, R137): r becomes the difference as 16-bit words, the low
16 bits of the exact signed difference; OF is 1 exactly when that is outside -32768 to 32767; SF and ZF from
the stored word; all else as before. (D9, D10: log 12; D4, D7, D16: logs 8, 10, 17.) -/
def Obligations.SubaStoresTheDifferenceAndSetsFlags : Prop :=
  (∀ (r : GR) (adr : Word) (x : Option GR) (s : State) (a b : Word),
    a = s.reg r → b = s.read (effectiveAddress adr x s) →
    ∃ t, exec (.subaMem r adr x) s = .next t ∧ WritesRegister 2 r (a - b) (flagsOf (decide (sint a - sint b < -32768 ∨ sint a - sint b > 32767)) (a - b)) s t)
  ∧ (∀ (r1 r2 : GR) (s : State) (a b : Word), a = s.reg r1 → b = s.reg r2 →
    ∃ t, exec (.subaReg r1 r2) s = .next t ∧ WritesRegister 1 r1 (a - b) (flagsOf (decide (sint a - sint b < -32768 ∨ sint a - sint b > 32767)) (a - b)) s t)
  ∧ ∀ a b : Word, a - b = w16 (sint a - sint b)

/-- O24, tier 2. SUBL, storage and register form (R138, R139): r becomes the difference as 16-bit words; OF is 1
exactly when the first operand is the smaller as an unsigned number; SF and ZF from the stored word; all else
as before. (D9, D10: log 12; D4, D7, D16: logs 8, 10, 17.) -/
def Obligations.SublStoresTheDifferenceAndSetsFlags : Prop :=
  (∀ (r : GR) (adr : Word) (x : Option GR) (s : State) (a b : Word),
    a = s.reg r → b = s.read (effectiveAddress adr x s) →
    ∃ t, exec (.sublMem r adr x) s = .next t ∧ WritesRegister 2 r (a - b) (flagsOf (decide (uint a < uint b)) (a - b)) s t)
  ∧ (∀ (r1 r2 : GR) (s : State) (a b : Word), a = s.reg r1 → b = s.reg r2 →
    ∃ t, exec (.sublReg r1 r2) s = .next t ∧ WritesRegister 1 r1 (a - b) (flagsOf (decide (uint a < uint b)) (a - b)) s t)
  ∧ ∀ a b : Word, a - b = w16 ((uint a : Int) - uint b)

/-- O25, tier 2. After ADDA, OF is 1 exactly when the operands have one sign and the stored word the other; after
SUBA, exactly when the operands' signs differ and the stored word's sign is not the first operand's; after
ADDL, exactly when the stored word is below the first operand. Both forms of each. (R27 with the stored result
of D9, log 12.) -/
def Obligations.OverflowReadFromTheStoredWord : Prop :=
  ∀ (i : Instr) (r : GR) (a b : Word) (s t : State), exec i s = .next t → a = s.reg r →
    ((∃ adr x, i = .addaMem r adr x ∧ b = s.read (effectiveAddress adr x s))
        ∨ (∃ r2, i = .addaReg r r2 ∧ b = s.reg r2) →
      (t.fr.OF = true ↔ a.getLsbD 15 = b.getLsbD 15 ∧ (t.reg r).getLsbD 15 ≠ a.getLsbD 15))
    ∧ ((∃ adr x, i = .subaMem r adr x ∧ b = s.read (effectiveAddress adr x s))
        ∨ (∃ r2, i = .subaReg r r2 ∧ b = s.reg r2) →
      (t.fr.OF = true ↔ a.getLsbD 15 ≠ b.getLsbD 15 ∧ (t.reg r).getLsbD 15 ≠ a.getLsbD 15))
    ∧ ((∃ adr x, i = .addlMem r adr x ∧ b = s.read (effectiveAddress adr x s))
        ∨ (∃ r2, i = .addlReg r r2 ∧ b = s.reg r2) →
      (t.fr.OF = true ↔ uint (t.reg r) < uint a))

/-- O26, tier 1. AND, OR and XOR, storage and register form (R140 to R145), answer a next state in which each of
the 16 bits of r is the operation on the operands' bits, OF is 0, SF and ZF are those of the result, PR is
past the instruction, and all else is as before. (D4, D7, D16: logs 8, 10, 17.) -/
def Obligations.LogicalOperationsAreBitwise : Prop :=
  (∀ (r : GR) (adr : Word) (x : Option GR) (s : State), ∃ t v, exec (.andMem r adr x) s = .next t
    ∧ WritesRegister 2 r v (flagsOf false v) s t
    ∧ ∀ k < 16, v.getLsbD k = ((s.reg r).getLsbD k && (s.read (effectiveAddress adr x s)).getLsbD k))
  ∧ (∀ (r1 r2 : GR) (s : State), ∃ t v, exec (.andReg r1 r2) s = .next t
    ∧ WritesRegister 1 r1 v (flagsOf false v) s t
    ∧ ∀ k < 16, v.getLsbD k = ((s.reg r1).getLsbD k && (s.reg r2).getLsbD k))
  ∧ (∀ (r : GR) (adr : Word) (x : Option GR) (s : State), ∃ t v, exec (.orMem r adr x) s = .next t
    ∧ WritesRegister 2 r v (flagsOf false v) s t
    ∧ ∀ k < 16, v.getLsbD k = ((s.reg r).getLsbD k || (s.read (effectiveAddress adr x s)).getLsbD k))
  ∧ (∀ (r1 r2 : GR) (s : State), ∃ t v, exec (.orReg r1 r2) s = .next t
    ∧ WritesRegister 1 r1 v (flagsOf false v) s t
    ∧ ∀ k < 16, v.getLsbD k = ((s.reg r1).getLsbD k || (s.reg r2).getLsbD k))
  ∧ (∀ (r : GR) (adr : Word) (x : Option GR) (s : State), ∃ t v, exec (.xorMem r adr x) s = .next t
    ∧ WritesRegister 2 r v (flagsOf false v) s t
    ∧ ∀ k < 16, v.getLsbD k = ((s.reg r).getLsbD k ^^ (s.read (effectiveAddress adr x s)).getLsbD k))
  ∧ (∀ (r1 r2 : GR) (s : State), ∃ t v, exec (.xorReg r1 r2) s = .next t
    ∧ WritesRegister 1 r1 v (flagsOf false v) s t
    ∧ ∀ k < 16, v.getLsbD k = ((s.reg r1).getLsbD k ^^ (s.reg r2).getLsbD k))

/-- O27, tier 1. CPA and CPL, storage and register form (R152 to R155), answer a next state in which FR is 000
when the first operand is greater, 001 when equal, 010 when less (OF SF ZF), as signed numbers for CPA and
unsigned for CPL; PR is past the instruction, one word on for the register form and two for the other;
registers, storage and the host's side are as before. (D11: log 13; D4, D7, D16: logs 8, 10, 17.) -/
def Obligations.ComparesSetFlagsByTheRelation : Prop :=
  ∀ (i : Instr) (s : State) (ka kb : Int), comparedNumbers s i = some (ka, kb) →
    ∃ t, exec i s = .next t
      ∧ WritesFlags i.words
          (if ka > kb then ⟨false, false, false⟩
            else if ka = kb then ⟨false, false, true⟩ else ⟨false, true, false⟩) s t

/-- O28, tier 2. SLA r,adr[,x] by n = the unsigned effective address: for n = 0 the register is unchanged and OF
is 0; for 1 to 15 bit 15 stays, the low 15 bits are multiplied by 2^n modulo 32768 and OF is bit 15 - n; for
16 and more only bit 15 is left and OF is 0. SF and ZF from the result, PR two on, all else as before. (R161,
R162; counts 0 and above 15 are the spec's own decision D13, log 15; D4, D7, D16: logs 8, 10, 17.) -/
def Obligations.SlaClosedForm : Prop :=
  ∀ (r : GR) (adr : Word) (x : Option GR) (s : State) (v : Word) (n : Nat) (res : Word) (out : Bool),
    v = s.reg r → n = uint (effectiveAddress adr x s) →
    (res, out) = (if n = 0 then (v, false)
      else if n ≤ 15 then
        (BitVec.ofNat 16 (uint v / 32768 * 32768 + uint v % 32768 * 2 ^ n % 32768), v.getLsbD (15 - n))
      else (BitVec.ofNat 16 (uint v / 32768 * 32768), false)) →
    ∃ t, exec (.sla r adr x) s = .next t ∧ WritesRegister 2 r res (flagsOf out res) s t

/-- O29, tier 2. SRA r,adr[,x] by n = the unsigned effective address: for n = 0 the register is unchanged and OF
is 0; for 1 to 15 the result is the signed operand divided by 2^n rounded toward minus infinity and OF is bit
n - 1; for 16 and more it is 0xFFFF or 0 by the sign and OF is the sign. SF and ZF from the result, PR two on,
all else as before. (R161, R163; D13, log 15; D4, D7, D16: logs 8, 10, 17.) -/
def Obligations.SraClosedForm : Prop :=
  ∀ (r : GR) (adr : Word) (x : Option GR) (s : State) (v : Word) (n : Nat) (res : Word) (out : Bool),
    v = s.reg r → n = uint (effectiveAddress adr x s) →
    (res, out) = (if n = 0 then (v, false)
      else if n ≤ 15 then (w16 (sint v / 2 ^ n), v.getLsbD (n - 1))
      else (if v.getLsbD 15 then 0xFFFF else 0, v.getLsbD 15)) →
    ∃ t, exec (.sra r adr x) s = .next t ∧ WritesRegister 2 r res (flagsOf out res) s t

/-- O30, tier 2. SLL r,adr[,x] by n = the unsigned effective address: for n = 0 the register is unchanged and OF
is 0; for 1 to 16 the result is the unsigned operand times 2^n modulo 65536 and OF is bit 16 - n; for 17 and
more it is 0 and OF is 0. SF and ZF from the result, PR two on, all else as before. (R161, R164; D12, D13:
logs 14, 15; D4, D7, D16: logs 8, 10, 17.) -/
def Obligations.SllClosedForm : Prop :=
  ∀ (r : GR) (adr : Word) (x : Option GR) (s : State) (v : Word) (n : Nat) (res : Word) (out : Bool),
    v = s.reg r → n = uint (effectiveAddress adr x s) →
    (res, out) = (if n = 0 then (v, false)
      else if n ≤ 16 then (BitVec.ofNat 16 (uint v * 2 ^ n), v.getLsbD (16 - n))
      else (0, false)) →
    ∃ t, exec (.sll r adr x) s = .next t ∧ WritesRegister 2 r res (flagsOf out res) s t

/-- O31, tier 2. SRL r,adr[,x] by n = the unsigned effective address: for n = 0 the register is unchanged and OF
is 0; for 1 to 16 the result is the unsigned operand divided by 2^n and OF is bit n - 1; for 17 and more it is
0 and OF is 0. SF and ZF from the result, PR two on, all else as before. (R161, R165; D12, D13: logs 14, 15;
D4, D7, D16: logs 8, 10, 17.) -/
def Obligations.SrlClosedForm : Prop :=
  ∀ (r : GR) (adr : Word) (x : Option GR) (s : State) (v : Word) (n : Nat) (res : Word) (out : Bool),
    v = s.reg r → n = uint (effectiveAddress adr x s) →
    (res, out) = (if n = 0 then (v, false)
      else if n ≤ 16 then (BitVec.ofNat 16 (uint v / 2 ^ n), v.getLsbD (n - 1))
      else (0, false)) →
    ∃ t, exec (.srl r adr x) s = .next t ∧ WritesRegister 2 r res (flagsOf out res) s t

/-- O32, tier 2. Each of the six jumps answers the state with only PR changed: to the effective address when its
condition of R171 holds, else to the next instruction. After a compare JPL's condition holds exactly when the
first operand is greater, JZE's when equal, JMI's when less, JNZ's when different. After LD, an arithmetic or
a logical instruction with result register r, JPL's condition holds exactly when r is above zero as a signed
number, JMI's when bit 15 of r is set, JZE's when r is zero, JNZ's when it is not. (R171; addresses and
lengths D4, D7, D16: logs 8, 10, 17; the compared numbers D11, log 13; flags of a stored result D10, log 12;
JMI is C2, log 28.) -/
def Obligations.JumpsFollowTheConditionTable : Prop :=
  (∀ (adr : Word) (x : Option GR) (s : State),
    exec (.jpl adr x) s = .next (s.setPc (if s.fr.SF = false ∧ s.fr.ZF = false then effectiveAddress adr x s else s.nextPc 2))
    ∧ exec (.jmi adr x) s = .next (s.setPc (if s.fr.SF = true then effectiveAddress adr x s else s.nextPc 2))
    ∧ exec (.jnz adr x) s = .next (s.setPc (if s.fr.ZF = false then effectiveAddress adr x s else s.nextPc 2))
    ∧ exec (.jze adr x) s = .next (s.setPc (if s.fr.ZF = true then effectiveAddress adr x s else s.nextPc 2))
    ∧ exec (.jov adr x) s = .next (s.setPc (if s.fr.OF = true then effectiveAddress adr x s else s.nextPc 2))
    ∧ exec (.jump adr x) s = .next (s.setPc (if True then effectiveAddress adr x s else s.nextPc 2)))
  ∧ (∀ (i : Instr) (s t : State) (ka kb : Int), comparedNumbers s i = some (ka, kb) → exec i s = .next t →
      ((t.fr.SF = false ∧ t.fr.ZF = false) ↔ ka > kb) ∧ (t.fr.ZF = true ↔ ka = kb)
      ∧ (t.fr.SF = true ↔ ka < kb) ∧ (t.fr.ZF = false ↔ ka ≠ kb))
  ∧ ∀ (i : Instr) (s t : State) (r : GR), resultRegister i = some r → exec i s = .next t →
      ((t.fr.SF = false ∧ t.fr.ZF = false) ↔ sint (t.reg r) > 0)
      ∧ (t.fr.SF = true ↔ (t.reg r).getLsbD 15 = true)
      ∧ (t.fr.ZF = true ↔ t.reg r = 0) ∧ (t.fr.ZF = false ↔ t.reg r ≠ 0)

/-- O33, tier 1. PUSH adr[,x] (R182) answers a next state in which SP is one less, the word at the new SP is the
effective address formed from the registers before the instruction (so with x = GR8 from the old SP), every
other word, every other register, FR and the host's side are as before, PR two on. (Order D8, log 11; wrap
D16, log 17; D4, D7: logs 8, 10.) -/
def Obligations.PushStoresTheEffectiveAddress : Prop :=
  ∀ (adr : Word) (x : Option GR) (s : State), ∃ t, exec (.push adr x) s = .next t
    ∧ t.sp = s.sp - 1 ∧ t.read (s.sp - 1) = effectiveAddress adr x s
    ∧ SameStorageBut (s.sp - 1) s t ∧ SameRegsBut [.gr8] s t
    ∧ t.fr = s.fr ∧ t.pc = s.pc + 2 ∧ SameHost s t

/-- O34, tier 1. POP r (R183) answers a next state in which, for r other than GR8, r is the word SP addressed and
SP is one more; for r = GR8 SP is that word plus one (the spec's own decision D14, log 11); storage, FR, every
other register and the host's side are as before, PR one on. (D4, D16: logs 8, 17.) -/
def Obligations.PopLoadsTheTopOfTheStack : Prop :=
  ∀ (r : GR) (s : State), ∃ t, exec (.pop r) s = .next t
    ∧ (if r = .gr8 then t.sp = s.read s.sp + 1 else t.reg r = s.read s.sp ∧ t.sp = s.sp + 1)
    ∧ SameRegsBut [r, .gr8] s t ∧ SameStorage s t
    ∧ t.fr = s.fr ∧ t.pc = s.pc + 1 ∧ SameHost s t

/-- O35, tier 2. RPUSH (R184) with SP = s answers a next state in which M[s-1] to M[s-7] are GR1 to GR7, M[s-8] is
s - 8, SP is s - 8, every other word of storage, GR0 to GR7, FR and the host's side are as before, PR one on;
all modulo 65536. (The stored GR8 is the spec's own decision D14, log 11; D4, D16: logs 8, 17.) -/
def Obligations.RpushStoresTheRegistersBelowSp : Prop :=
  ∀ s : State, ∃ t, exec .rpush s = .next t
    ∧ t.sp = s.sp - 8
    ∧ t.read (s.sp - 1) = s.reg .gr1 ∧ t.read (s.sp - 2) = s.reg .gr2
    ∧ t.read (s.sp - 3) = s.reg .gr3 ∧ t.read (s.sp - 4) = s.reg .gr4
    ∧ t.read (s.sp - 5) = s.reg .gr5 ∧ t.read (s.sp - 6) = s.reg .gr6
    ∧ t.read (s.sp - 7) = s.reg .gr7 ∧ t.read (s.sp - 8) = s.sp - 8
    ∧ (∀ b : Word, b ∉ [s.sp - 1, s.sp - 2, s.sp - 3, s.sp - 4, s.sp - 5, s.sp - 6, s.sp - 7, s.sp - 8] →
        t.read b = s.read b)
    ∧ SameRegsBut [.gr8] s t ∧ t.fr = s.fr ∧ t.pc = s.pc + 1 ∧ SameHost s t

/-- O36, tier 2. RPOP (R185) with u = M[SP] + 1 answers a next state in which GR7 to GR1 are M[u] to M[u+6], SP is
u + 7, GR0, storage, FR and the host's side are as before, PR one on; all modulo 65536. (The spec's own
decision D14, log 11; C11; D4, D16: logs 8, 17.) -/
def Obligations.RpopLoadsTheRegistersFromTheStack : Prop :=
  ∀ (s : State) (u : Word), u = s.read s.sp + 1 → ∃ t, exec .rpop s = .next t
    ∧ t.reg .gr7 = s.read u ∧ t.reg .gr6 = s.read (u + 1) ∧ t.reg .gr5 = s.read (u + 2)
    ∧ t.reg .gr4 = s.read (u + 3) ∧ t.reg .gr3 = s.read (u + 4) ∧ t.reg .gr2 = s.read (u + 5)
    ∧ t.reg .gr1 = s.read (u + 6) ∧ t.sp = u + 7 ∧ t.reg .gr0 = s.reg .gr0
    ∧ SameStorage s t ∧ t.fr = s.fr ∧ t.pc = s.pc + 1 ∧ SameHost s t

/-- O37, tier 2. If RPUSH at s answers t, and at a later state u SP is what t left and the eight words below the
old SP read as t left them, then RPOP at u answers a state in which GR1 to GR7 and SP are what they were at s,
and GR0, FR and storage are what u has (R186). (It holds under the spec's own decisions D8 and D14, log 11.) -/
def Obligations.RpushThenRpopRestoresTheRegisters : Prop :=
  ∀ s t u : State, exec .rpush s = .next t → u.sp = t.sp →
    (∀ b ∈ [s.sp - 1, s.sp - 2, s.sp - 3, s.sp - 4, s.sp - 5, s.sp - 6, s.sp - 7, s.sp - 8],
      u.read b = t.read b) →
    ∃ v, exec .rpop u = .next v ∧ (∀ g, g ≠ .gr0 → v.reg g = s.reg g)
      ∧ v.reg .gr0 = u.reg .gr0 ∧ v.fr = u.fr ∧ SameStorage u v

/-- O38, tier 1. CALL adr[,x] (R191) answers a next state in which SP is one less, the word at the new SP is PR +
2, PR is the effective address formed from the registers before the instruction, and every other word, every
other register, FR and the host's side are as before. (Target and saved address: the spec's own decision D15,
log 16; D4, D7, D8, D16: logs 8, 10, 11, 17.) -/
def Obligations.CallPushesTheReturnAddress : Prop :=
  ∀ (adr : Word) (x : Option GR) (s : State), ∃ t, exec (.call adr x) s = .next t
    ∧ t.pc = effectiveAddress adr x s
    ∧ t.sp = s.sp - 1 ∧ t.read (s.sp - 1) = s.pc + 2
    ∧ SameStorageBut (s.sp - 1) s t ∧ SameRegsBut [.gr8] s t ∧ t.fr = s.fr ∧ SameHost s t

/-- O39, tier 1. RET (R192) answers a next state in which PR is the word SP addressed, SP is one more, the run has
ended exactly when that word is OS_RET, and storage, every other register, FR, INPUT, OUTPUT, OS_RET and the
draw count are as before. (C4; the end of the run: the spec's own decision D20, log 23; wrap D16, log 17.) -/
def Obligations.RetPopsPr : Prop :=
  ∀ s : State, ∃ t, exec .ret s = .next t
    ∧ t.pc = s.read s.sp ∧ t.sp = s.sp + 1 ∧ (t.ended = true ↔ s.read s.sp = s.osRet)
    ∧ SameStorage s t ∧ SameRegsBut [.gr8] s t ∧ t.fr = s.fr
    ∧ t.input = s.input ∧ t.output = s.output ∧ t.osRet = s.osRet ∧ t.freeCount = s.freeCount

/-- O40, tier 2. If CALL at s answers t, and at a later state u SP and the word it addresses are as t left them,
then RET at u answers a state with PR two past the CALL and SP as it was before the CALL. (R191, R192 with the
spec's own decision D15, log 16.) -/
def Obligations.CallThenRetReturnsBehindTheCall : Prop :=
  ∀ (adr : Word) (x : Option GR) (s t u : State), exec (.call adr x) s = .next t →
    u.sp = t.sp → u.read u.sp = t.read t.sp →
    ∃ v, exec .ret u = .next v ∧ v.pc = s.pc + 2 ∧ v.sp = s.sp

/-- O41, tier 1. NOP (R204) answers the same state with PR one on. (One word D4, wrap D16: logs 8, 17.) -/
def Obligations.NopChangesOnlyPr : Prop :=
  ∀ s : State, exec .nop s = .next (s.setPc (s.pc + 1))

/-- O42, tier 2. SVC with effective address 1 and a record waiting answers a next state in which the word GR2
addresses is the number of codes stored, at most 256; each of the first 256 codes stands zero-extended in its
word from GR1 on, unless that is the length word; every other word is as before; the record is gone from
INPUT; all registers, OUTPUT, OS_RET and the run are as before; PR is two on; FR is the next free value,
whatever it is. (R202, R203, R253: the spec's own decisions D17, D27, logs 18 and 21; FR: log 19.) -/
def Obligations.SvcOneReadsARecord : Prop :=
  ∀ (adr : Word) (x : Option GR) (s : State) (rec : Record) (more : List Record),
    uint (effectiveAddress adr x s) = 1 → s.input = rec :: more →
    ∃ t, exec (.svc adr x) s = .next t
      ∧ t.read (s.reg .gr2) = w16 (min rec.length 256 : Nat)
      ∧ (∀ (n : Nat) (h : n < rec.length), n < 256 → s.reg .gr1 + BitVec.ofNat 16 n ≠ s.reg .gr2 →
          t.read (s.reg .gr1 + BitVec.ofNat 16 n) = zext16 rec[n])
      ∧ (∀ a, a ≠ s.reg .gr2 →
          (∀ n, n < rec.length → n < 256 → a ≠ s.reg .gr1 + BitVec.ofNat 16 n) → t.read a = s.read a)
      ∧ t.input = more ∧ t.output = s.output ∧ SameRegsBut [] s t
      ∧ t.osRet = s.osRet ∧ t.ended = s.ended ∧ t.pc = s.pc + 2
      ∧ t.fr = FR.ofBits (Config.freeFlags s.freeCount) ∧ t.freeCount = s.freeCount + 1

/-- O43, tier 1. SVC with effective address 1 and no record left answers a next state in which the word GR2
addresses is 0xFFFF and every other word, the registers, INPUT, OUTPUT, OS_RET and the run are as before; PR
is two on; FR is the next free value. (R253, R255: the spec's own decisions D17, D27, logs 18 and 21; FR: log
19.) -/
def Obligations.SvcOneAtEndOfFileStoresMinusOne : Prop :=
  ∀ (adr : Word) (x : Option GR) (s : State),
    uint (effectiveAddress adr x s) = 1 → s.input = [] →
    ∃ t, exec (.svc adr x) s = .next t
      ∧ t.read (s.reg .gr2) = 0xFFFF ∧ SameStorageBut (s.reg .gr2) s t
      ∧ t.input = [] ∧ t.output = s.output ∧ SameRegsBut [] s t
      ∧ t.osRet = s.osRet ∧ t.ended = s.ended ∧ t.pc = s.pc + 2
      ∧ t.fr = FR.ofBits (Config.freeFlags s.freeCount) ∧ t.freeCount = s.freeCount + 1

/-- O44, tier 2. SVC with effective address 2 and a length word of 0 to 32767 answers a next state in which OUTPUT
has one record more, as long as the length word says, its n-th code the low 8 bits of the n-th word from GR1
on; storage, the registers, INPUT, OS_RET and the run are as before; PR is two on; FR is the next free value.
(R258: the spec's own decision D17, log 18; FR: log 19.) -/
def Obligations.SvcTwoWritesARecord : Prop :=
  ∀ (adr : Word) (x : Option GR) (s : State),
    uint (effectiveAddress adr x s) = 2 → 0 ≤ sint (s.read (s.reg .gr2)) →
    ∃ (t : State) (rec : Record), exec (.svc adr x) s = .next t
      ∧ t.output = s.output ++ [rec] ∧ rec.length = uint (s.read (s.reg .gr2))
      ∧ (∀ (n : Nat) (h : n < rec.length),
          rec[n] = (s.read (s.reg .gr1 + BitVec.ofNat 16 n)).setWidth 8)
      ∧ t.input = s.input ∧ SameStorage s t ∧ SameRegsBut [] s t
      ∧ t.osRet = s.osRet ∧ t.ended = s.ended ∧ t.pc = s.pc + 2
      ∧ t.fr = FR.ofBits (Config.freeFlags s.freeCount) ∧ t.freeCount = s.freeCount + 1

/-- O45, tier 1. SVC with an effective address other than 1 and 2 answers the refusal that names the argument;
with 2 and a length word that is negative as a signed number, the refusal that names the length. (The spec's
own decisions D17 and D28, logs 20 and 22.) -/
def Obligations.SvcIsRefusedWithoutAService : Prop :=
  ∀ (adr : Word) (x : Option GR) (s : State),
    (uint (effectiveAddress adr x s) ≠ 1 → uint (effectiveAddress adr x s) ≠ 2 →
      exec (.svc adr x) s = .refused (.svcArgumentUndefined (effectiveAddress adr x s)))
    ∧ (uint (effectiveAddress adr x s) = 2 → sint (s.read (s.reg .gr2)) < 0 →
      exec (.svc adr x) s = .refused (.outLengthNegative (s.read (s.reg .gr2))))

/-- O46, tier 2. Every instruction other than SVC leaves INPUT, OUTPUT and the draw count as they were; SVC
changes INPUT only for argument 1 and OUTPUT only for argument 2 (R35, R296). (The services are D17, log 18.) -/
def Obligations.OnlySvcTouchesTheDevices : Prop :=
  (∀ (i : Instr) (s t : State), isSvc i = false → exec i s = .next t →
    t.input = s.input ∧ t.output = s.output ∧ t.freeCount = s.freeCount)
  ∧ ∀ (adr : Word) (x : Option GR) (s t : State), exec (.svc adr x) s = .next t →
    (t.input ≠ s.input → uint (effectiveAddress adr x s) = 1)
    ∧ (t.output ≠ s.output → uint (effectiveAddress adr x s) = 2)

/-- O47, tier 2. ST, LAD, the jumps, PUSH, POP, RPUSH, RPOP, CALL, RET and NOP keep FR; LD, AND, OR and XOR set it
from their result with OF 0; ADDA, ADDL, SUBA, SUBL and the shifts take SF and ZF from their result; CPA and
CPL set OF to 0 and never SF and ZF together; SVC leaves the next free value (R30; LAD by N4, log 27; SVC by
C5, log 19; SF and ZF of the stored result D10, log 12). -/
def Obligations.FlagColumnOfTheTables : Prop :=
  ∀ (i : Instr) (s t : State), exec i s = .next t →
    match i with
    | .st _ _ _ | .lad _ _ _ | .jpl _ _ | .jmi _ _ | .jnz _ _ | .jze _ _ | .jov _ _ | .jump _ _
    | .push _ _ | .pop _ | .rpush | .rpop | .call _ _ | .ret | .nop => t.fr = s.fr
    | .ldMem r _ _ | .andMem r _ _ | .orMem r _ _ | .xorMem r _ _ => t.fr = flagsOf false (t.reg r)
    | .ldReg r _ | .andReg r _ | .orReg r _ | .xorReg r _ => t.fr = flagsOf false (t.reg r)
    | .addaMem r _ _ | .addlMem r _ _ | .subaMem r _ _ | .sublMem r _ _
    | .sla r _ _ | .sra r _ _ | .sll r _ _ | .srl r _ _ => t.fr = flagsOf t.fr.OF (t.reg r)
    | .addaReg r _ | .addlReg r _ | .subaReg r _ | .sublReg r _ => t.fr = flagsOf t.fr.OF (t.reg r)
    | .cpaMem _ _ _ | .cplMem _ _ _ | .cpaReg _ _ | .cplReg _ _ =>
      t.fr.OF = false ∧ (t.fr.SF = false ∨ t.fr.ZF = false)
    | .svc _ _ => t.fr = FR.ofBits (Config.freeFlags s.freeCount)

/-- O48, tier 2. For every instruction that is no conditional jump: executed on two states that differ only in FR
it stops alike, or answers next states that differ at most in FR, and there, SVC apart (whose FR is
unspecified), only where FR was kept in both. Each of JPL, JMI, JNZ, JZE, JOV does depend on FR: two states
that differ only in FR send it to different addresses. -/
def Obligations.OnlyConditionalJumpsReadFlags : Prop :=
  (∀ (i : Instr) (s : State) (f : FR), conditionalJump i = false →
    (∀ t, exec i s = .next t → ∃ u, exec i (s.setFr f) = .next u ∧ u = t.setFr u.fr
      ∧ (isSvc i = true ∨ u.fr = t.fr ∨ (t.fr = s.fr ∧ u.fr = f)))
    ∧ (∀ r, exec i s = .refused r → exec i (s.setFr f) = .refused r))
  ∧ (∃ (s t u : State) (f : FR), exec (.jpl 0x2000 none) s = .next t ∧ exec (.jpl 0x2000 none) (s.setFr f) = .next u ∧ t.pc ≠ u.pc)
  ∧ (∃ (s t u : State) (f : FR), exec (.jmi 0x2000 none) s = .next t ∧ exec (.jmi 0x2000 none) (s.setFr f) = .next u ∧ t.pc ≠ u.pc)
  ∧ (∃ (s t u : State) (f : FR), exec (.jnz 0x2000 none) s = .next t ∧ exec (.jnz 0x2000 none) (s.setFr f) = .next u ∧ t.pc ≠ u.pc)
  ∧ (∃ (s t u : State) (f : FR), exec (.jze 0x2000 none) s = .next t ∧ exec (.jze 0x2000 none) (s.setFr f) = .next u ∧ t.pc ≠ u.pc)
  ∧ (∃ (s t u : State) (f : FR), exec (.jov 0x2000 none) s = .next t ∧ exec (.jov 0x2000 none) (s.setFr f) = .next u ∧ t.pc ≠ u.pc)

/-- O49, tier 2. After ADDA and SUBA, both forms, OF is 1 exactly when the exact signed result lies outside -32768
to 32767; after ADDL and SUBL exactly when the exact unsigned result lies outside 0 to 65535; after LD, AND,
OR, XOR, CPA and CPL OF is 0; after a shift by k + 1 it is the bit that the last one-bit step sends out of the
register as the first k steps left it. (R27; operand addresses D7, log 10; the steps of SLL and SRL D12, log
14; counts above 15 D13, log 15; the flags of a compare D11, log 13.) -/
def Obligations.OverflowFlagRule : Prop :=
  ∀ s t : State,
    (∀ r adr x, exec (.addaMem r adr x) s = .next t → (t.fr.OF = true ↔ (sint (s.reg r) + sint (s.read (effectiveAddress adr x s)) < -32768 ∨ sint (s.reg r) + sint (s.read (effectiveAddress adr x s)) > 32767)))
    ∧ (∀ r1 r2, exec (.addaReg r1 r2) s = .next t → (t.fr.OF = true ↔ (sint (s.reg r1) + sint (s.reg r2) < -32768 ∨ sint (s.reg r1) + sint (s.reg r2) > 32767)))
    ∧ (∀ r adr x, exec (.subaMem r adr x) s = .next t → (t.fr.OF = true ↔ (sint (s.reg r) - sint (s.read (effectiveAddress adr x s)) < -32768 ∨ sint (s.reg r) - sint (s.read (effectiveAddress adr x s)) > 32767)))
    ∧ (∀ r1 r2, exec (.subaReg r1 r2) s = .next t → (t.fr.OF = true ↔ (sint (s.reg r1) - sint (s.reg r2) < -32768 ∨ sint (s.reg r1) - sint (s.reg r2) > 32767)))
    ∧ (∀ r adr x, exec (.addlMem r adr x) s = .next t → (t.fr.OF = true ↔ ((uint (s.reg r) : Int) + uint (s.read (effectiveAddress adr x s)) < 0 ∨ (uint (s.reg r) : Int) + uint (s.read (effectiveAddress adr x s)) > 65535)))
    ∧ (∀ r1 r2, exec (.addlReg r1 r2) s = .next t → (t.fr.OF = true ↔ ((uint (s.reg r1) : Int) + uint (s.reg r2) < 0 ∨ (uint (s.reg r1) : Int) + uint (s.reg r2) > 65535)))
    ∧ (∀ r adr x, exec (.sublMem r adr x) s = .next t → (t.fr.OF = true ↔ ((uint (s.reg r) : Int) - uint (s.read (effectiveAddress adr x s)) < 0 ∨ (uint (s.reg r) : Int) - uint (s.read (effectiveAddress adr x s)) > 65535)))
    ∧ (∀ r1 r2, exec (.sublReg r1 r2) s = .next t → (t.fr.OF = true ↔ ((uint (s.reg r1) : Int) - uint (s.reg r2) < 0 ∨ (uint (s.reg r1) : Int) - uint (s.reg r2) > 65535)))
    ∧ (∀ r adr x, exec (.ldMem r adr x) s = .next t → t.fr.OF = false) ∧ (∀ r1 r2, exec (.ldReg r1 r2) s = .next t → t.fr.OF = false)
    ∧ (∀ r adr x, exec (.andMem r adr x) s = .next t → t.fr.OF = false) ∧ (∀ r1 r2, exec (.andReg r1 r2) s = .next t → t.fr.OF = false)
    ∧ (∀ r adr x, exec (.orMem r adr x) s = .next t → t.fr.OF = false) ∧ (∀ r1 r2, exec (.orReg r1 r2) s = .next t → t.fr.OF = false)
    ∧ (∀ r adr x, exec (.xorMem r adr x) s = .next t → t.fr.OF = false) ∧ (∀ r1 r2, exec (.xorReg r1 r2) s = .next t → t.fr.OF = false)
    ∧ (∀ r adr x, exec (.cpaMem r adr x) s = .next t → t.fr.OF = false) ∧ (∀ r1 r2, exec (.cpaReg r1 r2) s = .next t → t.fr.OF = false)
    ∧ (∀ r adr x, exec (.cplMem r adr x) s = .next t → t.fr.OF = false) ∧ (∀ r1 r2, exec (.cplReg r1 r2) s = .next t → t.fr.OF = false)
    ∧ (∀ r adr x k, exec (.sla r adr x) s = .next t → uint (effectiveAddress adr x s) = k + 1 →
        t.fr.OF = (stepSla (shift stepSla (s.reg r) k).2).1)
    ∧ (∀ r adr x k, exec (.sra r adr x) s = .next t → uint (effectiveAddress adr x s) = k + 1 →
        t.fr.OF = (stepSra (shift stepSra (s.reg r) k).2).1)
    ∧ (∀ r adr x k, exec (.sll r adr x) s = .next t → uint (effectiveAddress adr x s) = k + 1 →
        t.fr.OF = (stepSll (shift stepSll (s.reg r) k).2).1)
    ∧ (∀ r adr x k, exec (.srl r adr x) s = .next t → uint (effectiveAddress adr x s) = k + 1 →
        t.fr.OF = (stepSrl (shift stepSrl (s.reg r) k).2).1)

/-- O50, tier 2. After an instruction other than SVC, FR is what it was or has SF or ZF equal to 0: the
combination SF = 1, ZF = 1 can only be there from the start or from a free value (95_test_vectors.md 2.7,
R151). (SF and ZF both from the stored result: the spec's own decision D10, log 12; FR after SVC: log 19.) -/
def Obligations.SignAndZeroNeverSetTogether : Prop :=
  ∀ (i : Instr) (s t : State), isSvc i = false → exec i s = .next t →
    t.fr = s.fr ∨ t.fr.SF = false ∨ t.fr.ZF = false

/-- O51, tier 2. SVC apart, every instruction that reads a word of storage as data leaves every word of storage as
it was. What a storing instruction (ST, PUSH, RPUSH, CALL) does to the registers, PR and FR and the words it
changes do not depend on what storage held: run on the same state with other storage it leaves the same
registers, PR, FR and the same word wherever it changed one. So there is no swap or read-modify-write on
storage. (SVC, whose services are the OS's, reads storage with argument 2 and stores with argument 1:
SvcOneReadsARecord, SvcOneAtEndOfFileStoresMinusOne and SvcTwoWritesARecord, O42 to O44, say what they read
and store, OnlyStoringInstructionsChangeStorage, O52, when storage is kept.) -/
def Obligations.NoInstructionReadsAndWritesStorage : Prop :=
  (∀ (i : Instr) (s t : State), readsStorage i = true → exec i s = .next t → SameStorage s t)
  ∧ ∀ (i : Instr) (s t u : State) (m : Memory), writesStorage i = true →
    exec i s = .next t → exec i { s with mem := m } = .next u →
    u.gr = t.gr ∧ u.pc = t.pc ∧ u.fr = t.fr ∧ ∀ a, t.read a ≠ s.read a → u.read a = t.read a

/-- O52, tier 2. Every instruction other than ST, PUSH, RPUSH, CALL and SVC leaves every word of storage as it
was, and so does SVC with an argument other than 1 (R53, R258). (The services are D17, log 18.) -/
def Obligations.OnlyStoringInstructionsChangeStorage : Prop :=
  (∀ (i : Instr) (s t : State), writesStorage i = false → isSvc i = false → exec i s = .next t →
    SameStorage s t)
  ∧ ∀ (adr : Word) (x : Option GR) (s t : State), exec (.svc adr x) s = .next t →
    uint (effectiveAddress adr x s) ≠ 1 → SameStorage s t

/-- O53, tier 2. Every general register that the table of R23 does not name as written by an instruction (its
destination, GR8 for PUSH, POP, RPUSH, CALL, RET, GR1 to GR8 for RPOP, none for SVC) is as before after it.
(That no SVC changes a register rests on C10 and D17, log 18.) -/
def Obligations.RegistersWrittenAreTheNamedOnes : Prop :=
  ∀ (i : Instr) (s t : State), exec i s = .next t → SameRegsBut (writtenRegisters i) s t

/-- O54, tier 2. After an ST whose effective address is that of the next instruction, the next step runs the
instruction that the stored word begins, or faults on it when it begins none. (That the store is seen: the
spec's own decision D24, log 24; that the fetch of an illegal word is a fault: D5, D6, log 9; that the next
instruction is two words on: D4, D16, logs 8 and 17; PR at OS_RET is left out: D20, log 23.) -/
def Obligations.AStoreIsSeenByTheNextFetch : Prop :=
  ∀ (r : GR) (adr : Word) (x : Option GR) (s t : State), Running s →
    exec (.st r adr x) s = .next t → effectiveAddress adr x s = s.pc + 2 → t.pc ≠ t.osRet →
    (∀ i rest, decode [s.reg r, t.read (t.pc + 1)] = .ok (i, rest) → step t = exec i t)
    ∧ ∀ e, decodeHead (s.reg r) = .error e → step t = .fault (.illegalInstruction (s.reg r) t.pc)

/-- O55, tier 2. When a program assembles, its entry name is the START label and it has as many words as R232
counts for its lines plus the words of its literals. (Lengths D4, macros D18, pool D22: logs 8, 29, 32.) -/
def Obligations.AssembledSizeIsTheSumOfTheLines : Prop :=
  ∀ (name : Label) (entry : Option Label) (ls : List SourceLine) (m : ObjModule),
    assembleProgram name entry ls = .ok m →
    m.name = name ∧ m.words.length = bodySize ls + (ls.map fun l => l.stmt.literalSize).sum

/-- O56, tier 2. When a program assembles: (1) its execution start offset is that of the label in START's operand,
or 0 without one, where its first word stands (R216); (2) each label of its lines has as its offset the number
of words of the lines before it (R213), and the words of each line stand at that offset of the program (R232),
with the START label standing for the execution start address; (3) when the adr of a machine instruction is a
literal, the words of the literal's constant stand at the offset counted by all lines and the literals of the
lines before it, so in order of appearance and before END (R230, R231), and the second word of a two-word
instruction is the address of that offset. (Lengths D4, macros D18, literal pool D22, value of the START label
D23: logs 8, 29, 32, 31. For the empty literal, which has no words, the address of that offset is the model's
choice, log 40; for a program without words and START without operand, the offset 0 is, log 43.) -/
def Obligations.ALabelNamesTheFirstWordOfItsLine : Prop :=
  ∀ (name : Label) (entry : Option Label) (before after : List SourceLine) (l : SourceLine) (m : ObjModule),
    assembleProgram name entry (before ++ l :: after) = .ok m →
    (entry = none → m.start = 0)
    ∧ (∀ e, entry = some e → offsetOf e (labelOffsets 0 (before ++ l :: after)) = some m.start)
    ∧ (∀ n, l.label = some n → offsetOf n (labelOffsets 0 (before ++ l :: after)) = some (bodySize before))
    ∧ (m.words.drop (bodySize before)).take l.stmt.size =
      l.stmt.srcs ((name, m.start) :: labelOffsets 0 (before ++ l :: after))
        (bodySize (before ++ l :: after) + (before.map fun k => k.stmt.literalSize).sum)
    ∧ ∀ (i : Instr) (c : Const) (lit : Nat), l.stmt = .machine i (some (.literal c)) →
      lit = bodySize (before ++ l :: after) + (before.map fun k => k.stmt.literalSize).sum →
      (m.words.drop lit).take c.words.length = c.words.map .fixed
      ∧ (i.words = 2 → m.words[bodySize before + 1]? = some (.here lit))

/-- O57, tier 1. With operand words B and L, IN generates 7001 0000 7002 0000 1210 B 1220 L F000 0001 7120 7110,
and OUT the same with service number 2. (The spec's own decision D18, log 29.) -/
def Obligations.MacrosExpandToTwelveWords : Prop :=
  ∀ (labels : List (Label × Nat)) (lit : Nat) (area len : Label) (B L : Src),
    B = labelSrc labels area → L = labelSrc labels len →
    (Stmt.input area len).srcs labels lit =
      [.fixed 0x7001, .fixed 0x0000, .fixed 0x7002, .fixed 0x0000, .fixed 0x1210, B, .fixed 0x1220, L,
        .fixed 0xF000, .fixed 0x0001, .fixed 0x7120, .fixed 0x7110]
    ∧ (Stmt.output area len).srcs labels lit =
      [.fixed 0x7001, .fixed 0x0000, .fixed 0x7002, .fixed 0x0000, .fixed 0x1210, B, .fixed 0x1220, L,
        .fixed 0xF000, .fixed 0x0002, .fixed 0x7120, .fixed 0x7110]

/-- O58, tier 2. A text that begins with # (0x23) is a constant exactly when what follows is four hexadecimal
digits, the letters in upper case; the constant is then the hexadecimal constant of the number they write, and
generates one word, that number. Fewer or more digits, or other characters, are refused. -/
def Obligations.HexadecimalConstantsAreFourDigits : Prop :=
  ∀ t : Text,
    (∀ w : Word, parseConst (0x23 :: t) = some (.hex w) ↔
      ∃ a b c d : Nat, a < 16 ∧ b < 16 ∧ c < 16 ∧ d < 16
        ∧ t = [a, b, c, d].map (fun n => BitVec.ofNat 8 (if n < 10 then 0x30 + n else 0x41 + (n - 10)))
        ∧ uint w = a * 4096 + b * 256 + c * 16 + d)
    ∧ (∀ k : Const, parseConst (0x23 :: t) = some k → ∃ w : Word, k = .hex w ∧ k.words = [w])

/-- O59, tier 2. A text reads as a character constant of a string exactly when every character of the string is
the space (0x20) or a graphic character (codes 0x21 to 0x7E and 0xA1 to 0xDF) and the text is an apostrophe,
the string with each apostrophe written twice, and an apostrophe (R222, R225). DC of it generates one word per
character, in order, the code zero-extended; none for the empty string. A statement that the forms of R93 and
R214 admit is refused by the name katakanaInConstant when one of its character constants, in DC or as a
literal, holds a code 0xA1 to 0xDF, and is read as it is otherwise; so no instruction line that is accepted
holds one. (That the katakana are refused is the decision U24 of 93_implementation_defined.md, beside R225
which admits them: log 30.) -/
def Obligations.CharacterConstantsAreQuotedStrings : Prop :=
  (∀ (t : Text) (cs : List Byte),
    (parseConst t = some (.chars cs) ↔
      (∀ c ∈ cs, c = 0x20 ∨ (0x21 ≤ c.toNat ∧ c.toNat ≤ 0x7E) ∨ (0xA1 ≤ c.toNat ∧ c.toNat ≤ 0xDF))
      ∧ t = 0x27 :: ((cs.flatMap fun c => if c = 0x27 then [0x27, 0x27] else [c]) ++ [0x27]))
    ∧ ∀ labels : List (Label × Nat),
      (DcItem.const (.chars cs)).srcs labels = cs.map fun c => .fixed (BitVec.ofNat 16 c.toNat))
  ∧ (∀ (mn : Text) (ops : List Text) (st : Stmt), parseStmt mn ops = .ok st →
    ((∃ cs c, .chars cs ∈ st.constants ∧ c ∈ cs ∧ 0xA1 ≤ c.toNat ∧ c.toNat ≤ 0xDF) →
      readStmt mn ops = .error .katakanaInConstant)
    ∧ ((¬ ∃ cs c, .chars cs ∈ st.constants ∧ c ∈ cs ∧ 0xA1 ≤ c.toNat ∧ c.toNat ≤ 0xDF) → readStmt mn ops = .ok st))
  ∧ ∀ (line : Text) (l : SourceLine) (cs : List Byte) (c : Byte),
    parseLine line = .ok (some l) → .chars cs ∈ l.stmt.constants → c ∈ cs →
    c.toNat < 0xA1 ∨ 0xDF < c.toNat
end

