-- ==== Sys2Proof/Laws/Assemble.lean ====
section
/-! SUPPORT. Laws of assembling: how many words each part generates, and lists of lines one after the other (R230 to
R232). -/

namespace Sys2Proof.Machine

theorem machineSrcs_length (i : Instr) (a : Option Src) : (machineSrcs i a).length = i.words := by
  unfold machineSrcs Instr.words
  split
  · rename_i h
    rw [h]
    rfl
  · simp

theorem stmt_srcs_length (labels : List (Label × Nat)) (lit : Nat) (st : Stmt) :
    (st.srcs labels lit).length = st.size := by
  cases st with
  | dc items =>
    simp only [Stmt.srcs, Stmt.size, List.length_flatMap]
    congr 1
    apply List.map_congr_left
    intro d _
    cases d <;> simp [DcItem.srcs, DcItem.size]
  | machine i a => exact machineSrcs_length ..
  | input | output => simp [Stmt.srcs, Stmt.size, macroSrcs, machineSrcs_length, macroSize]; rfl
  | _ => simp [Stmt.srcs, Stmt.size]

theorem bodySrcs_length (labels : List (Label × Nat)) (ls : List SourceLine) :
    ∀ lit, (bodySrcs labels lit ls).length = bodySize ls := by
  induction ls with
  | nil => exact fun _ => rfl
  | cons l ls ih =>
    intro lit
    simp [bodySrcs, stmt_srcs_length, ih, bodySize]

/-- The lines of a list after those of another: the literals of the first stand before those of the second. -/
theorem bodySrcs_append (labels : List (Label × Nat)) (a b : List SourceLine) : ∀ lit,
    bodySrcs labels lit (a ++ b) = bodySrcs labels lit a
      ++ bodySrcs labels (lit + (a.map fun l => l.stmt.literalSize).sum) b := by
  induction a with
  | nil => exact fun _ => rfl
  | cons l ls ih =>
    intro lit
    simp [bodySrcs, ih, Nat.add_assoc]

theorem literalPool_append (a b : List SourceLine) : literalPool (a ++ b) = literalPool a ++ literalPool b := by
  simp [literalPool]

theorem literalPool_length (ls : List SourceLine) :
    (literalPool ls).length = (ls.map fun l => l.stmt.literalSize).sum := by
  induction ls with
  | nil => rfl
  | cons l ls ih =>
    simp only [literalPool, List.flatMap_cons, List.flatMap_append, List.length_append, List.map_cons,
      List.sum_cons] at *
    rw [ih]
    congr 1
    simp [Stmt.literalSize, List.length_flatMap, Function.comp_def]

end Sys2Proof.Machine
end

