-- ==== Sys2Proof/Laws/Decode.lean ====
section
/-! SUPPORT. The small facts of the fields and of the decoder. -/

namespace Sys2Proof

@[simp] theorem grOf_num (g : GR) : grOf g.num = some g := by cases g <;> rfl

theorem GR.num_lt (g : GR) : g.num < 9 := by cases g <;> decide

theorem GR.num_of_grOf {n : Nat} {g : GR} (h : grOf n = some g) : g.num = n := by
  unfold grOf at h
  split at h <;> first | (obtain rfl := Option.some.inj h; rfl) | cases h

theorem indexNum_lt (x : Option GR) : indexNum x < 9 := by
  cases x with
  | none => decide
  | some g => exact g.num_lt

theorem indexOf_indexNum {x : Option GR} (h : indexOk x = true) : indexOf (indexNum x) = some x := by
  cases x with
  | none => rfl
  | some g => cases g <;> first | rfl | cases h

theorem indexNum_of_indexOf {n : Nat} {x : Option GR} (h : indexOf n = some x) :
    indexNum x = n ∧ indexOk x = true := by
  cases n with
  | zero => obtain rfl := Option.some.inj h; exact ⟨rfl, rfl⟩
  | succ n =>
    simp only [indexOf, Option.map_eq_some_iff] at h
    obtain ⟨g, hg, rfl⟩ := h
    have hn := GR.num_of_grOf hg
    refine ⟨hn, ?_⟩
    cases g <;> first | rfl | (simp [GR.num] at hn)

/-! ### The fields of a first word put together from them -/

theorem opField_word0 {op rf xf : Nat} (h1 : op < 256) (h2 : rf < 16) (h3 : xf < 16) :
    opField (word0 op rf xf) = op := by
  unfold opField word0
  rw [BitVec.toNat_ofNat]
  omega

theorem rField_word0 {op rf xf : Nat} (h2 : rf < 16) (h3 : xf < 16) :
    rField (word0 op rf xf) = rf := by
  unfold rField word0
  rw [BitVec.toNat_ofNat]
  omega

theorem xField_word0 {op rf xf : Nat} (h3 : xf < 16) :
    xField (word0 op rf xf) = xf := by
  unfold xField word0
  rw [BitVec.toNat_ofNat]
  omega

/-- A first word is put together from its fields. -/
theorem word0_fields (w0 : Word) : word0 (opField w0) (rField w0) (xField w0) = w0 := by
  apply BitVec.eq_of_toNat_eq
  have := w0.isLt
  unfold word0 opField rField xField
  rw [BitVec.toNat_ofNat]
  omega

/-! ### Decode -/

theorem decode_whole {w0 : Word} {i : Instr} (h : decodeHead w0 = .ok (.whole i)) (rest : List Word) :
    decode (w0 :: rest) = .ok (i, rest) := by
  simp only [decode, h]

theorem decode_needsAdr {w0 : Word} {mk : Word → Instr} (h : decodeHead w0 = .ok (.needsAdr mk))
    (w1 : Word) (rest : List Word) : decode (w0 :: w1 :: rest) = .ok (mk w1, rest) := by
  simp only [decode, h]

theorem decode_illegal {w0 : Word} {e : DecodeError} (h : decodeHead w0 = .error e) (rest : List Word) :
    decode (w0 :: rest) = .error e := by
  simp only [decode, h]

end Sys2Proof
end

