-- ==== Sys2Proof/Laws/Memory.lean ====
section
/-! SUPPORT. The laws of storage: a read after a write, the canonical form, and equality by the words read. -/

namespace Sys2Proof.Machine

/-! ### Read after write (20_memory.md R50, R54) -/

theorem Memory.read_insertKey (k : Nat) (v : Word) (m : Memory) (b : Word) :
    (Memory.insertKey k v m).read b = if b.toNat = k then v else m.read b := by
  induction m with
  | nil =>
    by_cases h : k = b.toNat
    · simp [Memory.insertKey, Memory.read, h]
    · simp [Memory.insertKey, Memory.read, h, Ne.symm h]
  | cons c rest ih =>
    obtain ⟨k', v'⟩ := c
    unfold Memory.insertKey
    split
    · by_cases h : k = b.toNat
      · simp [Memory.read, h]
      · simp [Memory.read, h, Ne.symm h]
    · split
      · rename_i h1 h2
        subst h2
        by_cases h : k = b.toNat
        · simp [Memory.read, h]
        · simp [Memory.read, h, Ne.symm h]
      · rename_i h1 h2
        by_cases h : k' = b.toNat
        · have : b.toNat ≠ k := by omega
          simp [Memory.read, h, this]
        · simp [Memory.read, h, ih]

theorem Memory.read_eraseKey (k : Nat) (m : Memory) (b : Word) :
    (Memory.eraseKey k m).read b = if b.toNat = k then Config.unwritten else m.read b := by
  induction m with
  | nil => simp [Memory.eraseKey, Memory.read]
  | cons c rest ih =>
    obtain ⟨k', v'⟩ := c
    unfold Memory.eraseKey
    split
    · rename_i h
      subst h
      by_cases h : k' = b.toNat
      · rw [ih]; simp [h]
      · simp [Memory.read, h, Ne.symm h, ih]
    · rename_i h1
      by_cases h : k' = b.toNat
      · have : b.toNat ≠ k := by omega
        simp [Memory.read, h, this]
      · simp [Memory.read, h, ih]

/-- All that a write does to what storage reads. -/
theorem Memory.read_write (m : Memory) (a v b : Word) :
    (m.write a v).read b = if b = a then v else m.read b := by
  unfold Memory.write
  split
  · rename_i h
    simp [Memory.read_eraseKey, h, BitVec.toNat_inj]
  · simp [Memory.read_insertKey, BitVec.toNat_inj]

@[simp] theorem Memory.read_write_same (m : Memory) (a v : Word) : (m.write a v).read a = v := by
  simp [Memory.read_write]

theorem Memory.read_write_other (m : Memory) (a v b : Word) (h : b ≠ a) :
    (m.write a v).read b = m.read b := by
  simp [Memory.read_write, h]

/-! ### The canonical form -/

theorem Memory.mem_insertKey {k : Nat} {v : Word} {m : Memory} {c : Cell}
    (h : c ∈ Memory.insertKey k v m) : c = (k, v) ∨ c ∈ m := by
  induction m with
  | nil => simpa [Memory.insertKey] using h
  | cons d rest ih =>
    obtain ⟨k', v'⟩ := d
    unfold Memory.insertKey at h
    split at h
    · simpa using h
    · split at h
      · rcases List.mem_cons.mp h with h | h
        · exact .inl h
        · exact .inr (List.mem_cons_of_mem _ h)
      · rcases List.mem_cons.mp h with h | h
        · exact .inr (h ▸ List.mem_cons_self)
        · rcases ih h with h | h
          · exact .inl h
          · exact .inr (List.mem_cons_of_mem _ h)

theorem Memory.mem_eraseKey {k : Nat} {m : Memory} {c : Cell} (h : c ∈ Memory.eraseKey k m) : c ∈ m := by
  induction m with
  | nil => simp [Memory.eraseKey] at h
  | cons d rest ih =>
    obtain ⟨k', v'⟩ := d
    unfold Memory.eraseKey at h
    split at h
    · exact List.mem_cons_of_mem _ (ih h)
    · rcases List.mem_cons.mp h with h | h
      · exact h ▸ List.mem_cons_self
      · exact List.mem_cons_of_mem _ (ih h)

theorem Memory.pairwise_insertKey {k : Nat} {v : Word} {m : Memory}
    (h : m.Pairwise (fun c d => c.1 < d.1)) :
    (Memory.insertKey k v m).Pairwise (fun c d => c.1 < d.1) := by
  induction m with
  | nil => simp [Memory.insertKey]
  | cons d rest ih =>
    obtain ⟨k', v'⟩ := d
    obtain ⟨h1, h2⟩ := List.pairwise_cons.mp h
    unfold Memory.insertKey
    split
    · rename_i hk
      refine List.pairwise_cons.mpr ⟨fun c hc => ?_, h⟩
      rcases List.mem_cons.mp hc with hc | hc
      · subst hc; exact hk
      · exact lt_trans hk (h1 c hc)
    · split
      · rename_i hk
        subst hk
        exact List.pairwise_cons.mpr ⟨h1, h2⟩
      · refine List.pairwise_cons.mpr ⟨fun c hc => ?_, ih h2⟩
        rcases Memory.mem_insertKey hc with hc | hc
        · subst hc; simp only; omega
        · exact h1 c hc

theorem Memory.pairwise_eraseKey {k : Nat} {m : Memory} (h : m.Pairwise (fun c d => c.1 < d.1)) :
    (Memory.eraseKey k m).Pairwise (fun c d => c.1 < d.1) := by
  induction m with
  | nil => simp [Memory.eraseKey]
  | cons d rest ih =>
    obtain ⟨h1, h2⟩ := List.pairwise_cons.mp h
    unfold Memory.eraseKey
    split
    · exact ih h2
    · exact List.pairwise_cons.mpr ⟨fun c hc => h1 c (Memory.mem_eraseKey hc), ih h2⟩

/-- A write keeps the canonical form. -/
theorem Memory.wf_write {m : Memory} (h : m.wf) (a v : Word) : (m.write a v).wf := by
  obtain ⟨h1, h2⟩ := h
  unfold Memory.write
  split
  · exact ⟨Memory.pairwise_eraseKey h1, fun c hc => h2 c (Memory.mem_eraseKey hc)⟩
  · rename_i hv
    refine ⟨Memory.pairwise_insertKey h1, fun c hc => ?_⟩
    rcases Memory.mem_insertKey hc with hc | hc
    · subst hc; exact ⟨a.isLt, hv⟩
    · exact h2 c hc

/-- Storing character codes keeps the canonical form. -/
theorem Memory.wf_storeChars (cs : List Byte) (buf : Word) {m : Memory} (h : m.wf) :
    (storeChars buf cs m).wf := by
  induction cs generalizing buf m with
  | nil => exact h
  | cons c cs ih => exact ih _ (Memory.wf_write h _ _)

theorem State.reset_mem_wf : State.reset.mem.wf := by decide

/-! ### Canonical memories are equal when they read the same -/

theorem Memory.read_of_mem {m : Memory} (h : m.Pairwise (fun c d => c.1 < d.1)) {k : Nat} {v : Word}
    (hk : k < 65536) (hm : (k, v) ∈ m) : m.read (BitVec.ofNat 16 k) = v := by
  induction m with
  | nil => simp at hm
  | cons c rest ih =>
    obtain ⟨k', v'⟩ := c
    obtain ⟨h1, h2⟩ := List.pairwise_cons.mp h
    have ht : (BitVec.ofNat 16 k).toNat = k := by simp; omega
    rcases List.mem_cons.mp hm with hm | hm
    · obtain ⟨rfl, rfl⟩ := Prod.mk.injEq .. ▸ hm
      simp [Memory.read, ht]
    · have : k' < k := h1 _ hm
      have hne : k' ≠ k := by omega
      simp [Memory.read, ht, hne, ih h2 hm]

theorem Memory.read_unlisted {m : Memory} {a : Word} (h : ∀ c ∈ m, c.1 ≠ a.toNat) :
    m.read a = Config.unwritten := by
  induction m with
  | nil => rfl
  | cons c rest ih =>
    obtain ⟨k', v'⟩ := c
    have h1 : k' ≠ a.toNat := h (k', v') List.mem_cons_self
    simp [Memory.read, h1, ih fun c hc => h c (List.mem_cons_of_mem _ hc)]

theorem Memory.mem_of_read {m n : Memory} (hm : m.wf) (hr : ∀ a, m.read a = n.read a) {c : Cell}
    (hc : c ∈ m) : c ∈ n := by
  obtain ⟨k, v⟩ := c
  obtain ⟨hk, hv⟩ := hm.2 _ hc
  have h1 := hr (BitVec.ofNat 16 k)
  rw [Memory.read_of_mem hm.1 hk hc] at h1
  have ht : (BitVec.ofNat 16 k).toNat = k := by simp; omega
  by_contra hcn
  have : ∀ n : Memory, (k, v) ∉ n → v = n.read (BitVec.ofNat 16 k) → v = Config.unwritten := by
    intro n hn he
    induction n with
    | nil => exact he
    | cons d rest ih =>
      obtain ⟨k', v'⟩ := d
      simp only [Memory.read, ht] at he
      split at he
      · rename_i hkk
        subst hkk; subst he
        exact absurd List.mem_cons_self hn
      · exact ih (fun h => hn (List.mem_cons_of_mem _ h)) he
  exact hv (this n hcn h1)

theorem Memory.eq_of_same_cells {m n : Memory} (hm : m.Pairwise (fun c d => c.1 < d.1))
    (hn : n.Pairwise (fun c d => c.1 < d.1)) (h : ∀ c, c ∈ m ↔ c ∈ n) : m = n := by
  induction m generalizing n with
  | nil =>
    cases n with
    | nil => rfl
    | cons d _ => exact absurd ((h d).mpr List.mem_cons_self) (List.not_mem_nil)
  | cons c m ih =>
    cases n with
    | nil => exact absurd ((h c).mp List.mem_cons_self) (List.not_mem_nil)
    | cons d n =>
      obtain ⟨hm1, hm2⟩ := List.pairwise_cons.mp hm
      obtain ⟨hn1, hn2⟩ := List.pairwise_cons.mp hn
      have hcd : c = d := by
        rcases List.mem_cons.mp ((h c).mp List.mem_cons_self) with hc | hc
        · exact hc
        · rcases List.mem_cons.mp ((h d).mpr List.mem_cons_self) with hd | hd
          · exact hd.symm
          · have := hn1 c hc
            have := hm1 d hd
            omega
      subst hcd
      congr 1
      refine ih hm2 hn2 fun e => ⟨fun he => ?_, fun he => ?_⟩
      · rcases List.mem_cons.mp ((h e).mp (List.mem_cons_of_mem _ he)) with h' | h'
        · subst h'; exact absurd (hm1 e he) (lt_irrefl _)
        · exact h'
      · rcases List.mem_cons.mp ((h e).mpr (List.mem_cons_of_mem _ he)) with h' | h'
        · subst h'; exact absurd (hn1 e he) (lt_irrefl _)
        · exact h'

/-- Two storages in canonical form that read the same at every address are the same list. -/
theorem Memory.ext_of_read {m n : Memory} (hm : m.wf) (hn : n.wf) (h : ∀ a, m.read a = n.read a) :
    m = n :=
  Memory.eq_of_same_cells hm.1 hn.1 fun _ =>
    ⟨Memory.mem_of_read hm h, Memory.mem_of_read hn fun a => (h a).symm⟩

end Sys2Proof.Machine
end

