-- ==== Sys2Proof/Laws/State.lean ====
section
/-! SUPPORT. One lemma per field per update of State, so that no proof unfolds a record update. -/

namespace Sys2Proof.Machine

/-! ### State.write -/

@[simp] theorem State.write_gr (s : State) (a v : Word) : (s.write a v).gr = s.gr := rfl
@[simp] theorem State.write_pc (s : State) (a v : Word) : (s.write a v).pc = s.pc := rfl
@[simp] theorem State.write_fr (s : State) (a v : Word) : (s.write a v).fr = s.fr := rfl
@[simp] theorem State.write_mem (s : State) (a v : Word) : (s.write a v).mem = s.mem.write a v := rfl
@[simp] theorem State.write_input (s : State) (a v : Word) : (s.write a v).input = s.input := rfl
@[simp] theorem State.write_output (s : State) (a v : Word) : (s.write a v).output = s.output := rfl
@[simp] theorem State.write_osRet (s : State) (a v : Word) : (s.write a v).osRet = s.osRet := rfl
@[simp] theorem State.write_ended (s : State) (a v : Word) : (s.write a v).ended = s.ended := rfl
@[simp] theorem State.write_freeCount (s : State) (a v : Word) : (s.write a v).freeCount = s.freeCount := rfl

/-! ### State.setReg -/

@[simp] theorem State.setReg_gr (s : State) (r : GR) (v : Word) : (s.setReg r v).gr = s.gr.set r v := rfl
@[simp] theorem State.setReg_pc (s : State) (r : GR) (v : Word) : (s.setReg r v).pc = s.pc := rfl
@[simp] theorem State.setReg_fr (s : State) (r : GR) (v : Word) : (s.setReg r v).fr = s.fr := rfl
@[simp] theorem State.setReg_mem (s : State) (r : GR) (v : Word) : (s.setReg r v).mem = s.mem := rfl
@[simp] theorem State.setReg_input (s : State) (r : GR) (v : Word) : (s.setReg r v).input = s.input := rfl
@[simp] theorem State.setReg_output (s : State) (r : GR) (v : Word) : (s.setReg r v).output = s.output := rfl
@[simp] theorem State.setReg_osRet (s : State) (r : GR) (v : Word) : (s.setReg r v).osRet = s.osRet := rfl
@[simp] theorem State.setReg_ended (s : State) (r : GR) (v : Word) : (s.setReg r v).ended = s.ended := rfl
@[simp] theorem State.setReg_freeCount (s : State) (r : GR) (v : Word) : (s.setReg r v).freeCount = s.freeCount := rfl

/-! ### State.setPc -/

@[simp] theorem State.setPc_gr (s : State) (v : Word) : (s.setPc v).gr = s.gr := rfl
@[simp] theorem State.setPc_pc (s : State) (v : Word) : (s.setPc v).pc = v := rfl
@[simp] theorem State.setPc_fr (s : State) (v : Word) : (s.setPc v).fr = s.fr := rfl
@[simp] theorem State.setPc_mem (s : State) (v : Word) : (s.setPc v).mem = s.mem := rfl
@[simp] theorem State.setPc_input (s : State) (v : Word) : (s.setPc v).input = s.input := rfl
@[simp] theorem State.setPc_output (s : State) (v : Word) : (s.setPc v).output = s.output := rfl
@[simp] theorem State.setPc_osRet (s : State) (v : Word) : (s.setPc v).osRet = s.osRet := rfl
@[simp] theorem State.setPc_ended (s : State) (v : Word) : (s.setPc v).ended = s.ended := rfl
@[simp] theorem State.setPc_freeCount (s : State) (v : Word) : (s.setPc v).freeCount = s.freeCount := rfl

/-! ### State.setFr -/

@[simp] theorem State.setFr_gr (s : State) (f : FR) : (s.setFr f).gr = s.gr := rfl
@[simp] theorem State.setFr_pc (s : State) (f : FR) : (s.setFr f).pc = s.pc := rfl
@[simp] theorem State.setFr_fr (s : State) (f : FR) : (s.setFr f).fr = f := rfl
@[simp] theorem State.setFr_mem (s : State) (f : FR) : (s.setFr f).mem = s.mem := rfl
@[simp] theorem State.setFr_input (s : State) (f : FR) : (s.setFr f).input = s.input := rfl
@[simp] theorem State.setFr_output (s : State) (f : FR) : (s.setFr f).output = s.output := rfl
@[simp] theorem State.setFr_osRet (s : State) (f : FR) : (s.setFr f).osRet = s.osRet := rfl
@[simp] theorem State.setFr_ended (s : State) (f : FR) : (s.setFr f).ended = s.ended := rfl
@[simp] theorem State.setFr_freeCount (s : State) (f : FR) : (s.setFr f).freeCount = s.freeCount := rfl

/-! ### State.setSp -/

@[simp] theorem State.setSp_gr (s : State) (v : Word) : (s.setSp v).gr = s.gr.set .gr8 v := rfl
@[simp] theorem State.setSp_pc (s : State) (v : Word) : (s.setSp v).pc = s.pc := rfl
@[simp] theorem State.setSp_fr (s : State) (v : Word) : (s.setSp v).fr = s.fr := rfl
@[simp] theorem State.setSp_mem (s : State) (v : Word) : (s.setSp v).mem = s.mem := rfl
@[simp] theorem State.setSp_input (s : State) (v : Word) : (s.setSp v).input = s.input := rfl
@[simp] theorem State.setSp_output (s : State) (v : Word) : (s.setSp v).output = s.output := rfl
@[simp] theorem State.setSp_osRet (s : State) (v : Word) : (s.setSp v).osRet = s.osRet := rfl
@[simp] theorem State.setSp_ended (s : State) (v : Word) : (s.setSp v).ended = s.ended := rfl
@[simp] theorem State.setSp_freeCount (s : State) (v : Word) : (s.setSp v).freeCount = s.freeCount := rfl

/-! ### State.advance -/

@[simp] theorem State.advance_gr (s : State) (n : Nat) : (s.advance n).gr = s.gr := rfl
@[simp] theorem State.advance_pc (s : State) (n : Nat) : (s.advance n).pc = s.nextPc n := rfl
@[simp] theorem State.advance_fr (s : State) (n : Nat) : (s.advance n).fr = s.fr := rfl
@[simp] theorem State.advance_mem (s : State) (n : Nat) : (s.advance n).mem = s.mem := rfl
@[simp] theorem State.advance_input (s : State) (n : Nat) : (s.advance n).input = s.input := rfl
@[simp] theorem State.advance_output (s : State) (n : Nat) : (s.advance n).output = s.output := rfl
@[simp] theorem State.advance_osRet (s : State) (n : Nat) : (s.advance n).osRet = s.osRet := rfl
@[simp] theorem State.advance_ended (s : State) (n : Nat) : (s.advance n).ended = s.ended := rfl
@[simp] theorem State.advance_freeCount (s : State) (n : Nat) : (s.advance n).freeCount = s.freeCount := rfl

/-! ### State.pushWord -/

@[simp] theorem State.pushWord_gr (s : State) (v : Word) : (s.pushWord v).gr = s.gr.set .gr8 (s.sp - 1) := rfl
@[simp] theorem State.pushWord_pc (s : State) (v : Word) : (s.pushWord v).pc = s.pc := rfl
@[simp] theorem State.pushWord_fr (s : State) (v : Word) : (s.pushWord v).fr = s.fr := rfl
@[simp] theorem State.pushWord_mem (s : State) (v : Word) : (s.pushWord v).mem = s.mem.write (s.sp - 1) v := rfl
@[simp] theorem State.pushWord_input (s : State) (v : Word) : (s.pushWord v).input = s.input := rfl
@[simp] theorem State.pushWord_output (s : State) (v : Word) : (s.pushWord v).output = s.output := rfl
@[simp] theorem State.pushWord_osRet (s : State) (v : Word) : (s.pushWord v).osRet = s.osRet := rfl
@[simp] theorem State.pushWord_ended (s : State) (v : Word) : (s.pushWord v).ended = s.ended := rfl
@[simp] theorem State.pushWord_freeCount (s : State) (v : Word) : (s.pushWord v).freeCount = s.freeCount := rfl

/-! ### State.dropWord -/

@[simp] theorem State.dropWord_gr (s : State) : (s.dropWord).gr = s.gr.set .gr8 (s.sp + 1) := rfl
@[simp] theorem State.dropWord_pc (s : State) : (s.dropWord).pc = s.pc := rfl
@[simp] theorem State.dropWord_fr (s : State) : (s.dropWord).fr = s.fr := rfl
@[simp] theorem State.dropWord_mem (s : State) : (s.dropWord).mem = s.mem := rfl
@[simp] theorem State.dropWord_input (s : State) : (s.dropWord).input = s.input := rfl
@[simp] theorem State.dropWord_output (s : State) : (s.dropWord).output = s.output := rfl
@[simp] theorem State.dropWord_osRet (s : State) : (s.dropWord).osRet = s.osRet := rfl
@[simp] theorem State.dropWord_ended (s : State) : (s.dropWord).ended = s.ended := rfl
@[simp] theorem State.dropWord_freeCount (s : State) : (s.dropWord).freeCount = s.freeCount := rfl

/-! ### State.popReg -/

@[simp] theorem State.popReg_gr (s : State) (r : GR) : (s.popReg r).gr = (s.gr.set r (s.read s.sp)).set .gr8 ((s.gr.set r (s.read s.sp)).get .gr8 + 1) := rfl
@[simp] theorem State.popReg_pc (s : State) (r : GR) : (s.popReg r).pc = s.pc := rfl
@[simp] theorem State.popReg_fr (s : State) (r : GR) : (s.popReg r).fr = s.fr := rfl
@[simp] theorem State.popReg_mem (s : State) (r : GR) : (s.popReg r).mem = s.mem := rfl
@[simp] theorem State.popReg_input (s : State) (r : GR) : (s.popReg r).input = s.input := rfl
@[simp] theorem State.popReg_output (s : State) (r : GR) : (s.popReg r).output = s.output := rfl
@[simp] theorem State.popReg_osRet (s : State) (r : GR) : (s.popReg r).osRet = s.osRet := rfl
@[simp] theorem State.popReg_ended (s : State) (r : GR) : (s.popReg r).ended = s.ended := rfl
@[simp] theorem State.popReg_freeCount (s : State) (r : GR) : (s.popReg r).freeCount = s.freeCount := rfl

/-! ### State.pushReg -/

@[simp] theorem State.pushReg_gr (s : State) (r : GR) : (s.pushReg r).gr = s.gr.set .gr8 (s.sp - 1) := rfl
@[simp] theorem State.pushReg_pc (s : State) (r : GR) : (s.pushReg r).pc = s.pc := rfl
@[simp] theorem State.pushReg_fr (s : State) (r : GR) : (s.pushReg r).fr = s.fr := rfl
@[simp] theorem State.pushReg_mem (s : State) (r : GR) : (s.pushReg r).mem = s.mem.write (s.sp - 1) ((s.gr.set .gr8 (s.sp - 1)).get r) := rfl
@[simp] theorem State.pushReg_input (s : State) (r : GR) : (s.pushReg r).input = s.input := rfl
@[simp] theorem State.pushReg_output (s : State) (r : GR) : (s.pushReg r).output = s.output := rfl
@[simp] theorem State.pushReg_osRet (s : State) (r : GR) : (s.pushReg r).osRet = s.osRet := rfl
@[simp] theorem State.pushReg_ended (s : State) (r : GR) : (s.pushReg r).ended = s.ended := rfl
@[simp] theorem State.pushReg_freeCount (s : State) (r : GR) : (s.pushReg r).freeCount = s.freeCount := rfl

/-! ### State.drawFr -/

@[simp] theorem State.drawFr_gr (s : State) : (s.drawFr).gr = s.gr := rfl
@[simp] theorem State.drawFr_pc (s : State) : (s.drawFr).pc = s.pc := rfl
@[simp] theorem State.drawFr_fr (s : State) : (s.drawFr).fr = FR.ofBits (Config.freeFlags s.freeCount) := rfl
@[simp] theorem State.drawFr_mem (s : State) : (s.drawFr).mem = s.mem := rfl
@[simp] theorem State.drawFr_input (s : State) : (s.drawFr).input = s.input := rfl
@[simp] theorem State.drawFr_output (s : State) : (s.drawFr).output = s.output := rfl
@[simp] theorem State.drawFr_osRet (s : State) : (s.drawFr).osRet = s.osRet := rfl
@[simp] theorem State.drawFr_ended (s : State) : (s.drawFr).ended = s.ended := rfl
@[simp] theorem State.drawFr_freeCount (s : State) : (s.drawFr).freeCount = s.freeCount + 1 := rfl

/-! ### State.callTo -/

@[simp] theorem State.callTo_gr (s : State) (e w : Word) : (s.callTo e w).gr = s.gr.set .gr8 (s.sp - 1) := rfl
@[simp] theorem State.callTo_pc (s : State) (e w : Word) : (s.callTo e w).pc = e := rfl
@[simp] theorem State.callTo_fr (s : State) (e w : Word) : (s.callTo e w).fr = s.fr := rfl
@[simp] theorem State.callTo_mem (s : State) (e w : Word) : (s.callTo e w).mem = s.mem.write (s.sp - 1) w := rfl
@[simp] theorem State.callTo_input (s : State) (e w : Word) : (s.callTo e w).input = s.input := rfl
@[simp] theorem State.callTo_output (s : State) (e w : Word) : (s.callTo e w).output = s.output := rfl
@[simp] theorem State.callTo_osRet (s : State) (e w : Word) : (s.callTo e w).osRet = s.osRet := rfl
@[simp] theorem State.callTo_ended (s : State) (e w : Word) : (s.callTo e w).ended = s.ended := rfl
@[simp] theorem State.callTo_freeCount (s : State) (e w : Word) : (s.callTo e w).freeCount = s.freeCount := rfl

/-! ### finish: a result, FR and the next instruction -/

@[simp] theorem finish_gr (n : Nat) (r : GR) (v : Word) (f : FR) (s : State) :
    (finish n r v f s).gr = s.gr.set r v := rfl
@[simp] theorem finish_pc (n : Nat) (r : GR) (v : Word) (f : FR) (s : State) :
    (finish n r v f s).pc = s.nextPc n := rfl
@[simp] theorem finish_fr (n : Nat) (r : GR) (v : Word) (f : FR) (s : State) :
    (finish n r v f s).fr = f := rfl
@[simp] theorem finish_mem (n : Nat) (r : GR) (v : Word) (f : FR) (s : State) :
    (finish n r v f s).mem = s.mem := rfl
@[simp] theorem finish_input (n : Nat) (r : GR) (v : Word) (f : FR) (s : State) :
    (finish n r v f s).input = s.input := rfl
@[simp] theorem finish_output (n : Nat) (r : GR) (v : Word) (f : FR) (s : State) :
    (finish n r v f s).output = s.output := rfl
@[simp] theorem finish_osRet (n : Nat) (r : GR) (v : Word) (f : FR) (s : State) :
    (finish n r v f s).osRet = s.osRet := rfl
@[simp] theorem finish_ended (n : Nat) (r : GR) (v : Word) (f : FR) (s : State) :
    (finish n r v f s).ended = s.ended := rfl
@[simp] theorem finish_freeCount (n : Nat) (r : GR) (v : Word) (f : FR) (s : State) :
    (finish n r v f s).freeCount = s.freeCount := rfl

/-! ### The views of a state -/

theorem State.reg_def (s : State) (r : GR) : s.reg r = s.gr.get r := rfl

theorem State.sp_def (s : State) : s.sp = s.gr.get .gr8 := rfl

theorem State.read_def (s : State) (a : Word) : s.read a = s.mem.read a := rfl

theorem State.nextPc_def (s : State) (n : Nat) : s.nextPc n = s.pc + BitVec.ofNat 16 n := rfl

end Sys2Proof.Machine
end

