-- ==== Sys2Proof/Laws/Registers.lean ====
section
/-! SUPPORT. The laws of the register file: one register is read as it was last written (10_state.md R20, R21). -/

namespace Sys2Proof.Machine

theorem GprFile.get_set (g : GprFile) (r q : GR) (v : Word) :
    (g.set r v).get q = if q = r then v else g.get q := by
  cases r <;> cases q <;> rfl

@[simp] theorem GprFile.get_set_same (g : GprFile) (r : GR) (v : Word) : (g.set r v).get r = v := by
  simp [GprFile.get_set]

theorem GprFile.get_set_other (g : GprFile) (r q : GR) (v : Word) (h : q ≠ r) :
    (g.set r v).get q = g.get q := by
  simp [GprFile.get_set, h]

@[simp] theorem GprFile.set_get (g : GprFile) (r : GR) : g.set r (g.get r) = g := by
  cases r <;> rfl

theorem GprFile.ext_get {g h : GprFile} (e : ∀ r, g.get r = h.get r) : g = h := by
  obtain ⟨a0, a1, a2, a3, a4, a5, a6, a7, a8⟩ := g
  obtain ⟨b0, b1, b2, b3, b4, b5, b6, b7, b8⟩ := h
  simp only [GprFile.mk.injEq]
  exact ⟨e .gr0, e .gr1, e .gr2, e .gr3, e .gr4, e .gr5, e .gr6, e .gr7, e .gr8⟩

/-! ### The same for states -/

theorem State.reg_setReg (s : State) (r q : GR) (v : Word) :
    (s.setReg r v).reg q = if q = r then v else s.reg q :=
  GprFile.get_set s.gr r q v

@[simp] theorem State.reg_setReg_same (s : State) (r : GR) (v : Word) : (s.setReg r v).reg r = v :=
  GprFile.get_set_same s.gr r v

theorem State.reg_setReg_other (s : State) (r q : GR) (v : Word) (h : q ≠ r) :
    (s.setReg r v).reg q = s.reg q :=
  GprFile.get_set_other s.gr r q v h

theorem State.reg_setSp (s : State) (q : GR) (v : Word) :
    (s.setSp v).reg q = if q = .gr8 then v else s.reg q :=
  GprFile.get_set s.gr .gr8 q v

@[simp] theorem State.sp_setSp (s : State) (v : Word) : (s.setSp v).sp = v := rfl

@[simp] theorem State.reg_write (s : State) (a v : Word) (q : GR) : (s.write a v).reg q = s.reg q := rfl
@[simp] theorem State.reg_setPc (s : State) (v : Word) (q : GR) : (s.setPc v).reg q = s.reg q := rfl
@[simp] theorem State.reg_setFr (s : State) (f : FR) (q : GR) : (s.setFr f).reg q = s.reg q := rfl
@[simp] theorem State.reg_advance (s : State) (n : Nat) (q : GR) : (s.advance n).reg q = s.reg q := rfl
@[simp] theorem State.reg_drawFr (s : State) (q : GR) : s.drawFr.reg q = s.reg q := rfl

@[simp] theorem State.read_setReg (s : State) (r : GR) (v a : Word) : (s.setReg r v).read a = s.read a := rfl
@[simp] theorem State.read_setSp (s : State) (v a : Word) : (s.setSp v).read a = s.read a := rfl
@[simp] theorem State.read_setPc (s : State) (v a : Word) : (s.setPc v).read a = s.read a := rfl
@[simp] theorem State.read_setFr (s : State) (f : FR) (a : Word) : (s.setFr f).read a = s.read a := rfl
@[simp] theorem State.read_advance (s : State) (n : Nat) (a : Word) : (s.advance n).read a = s.read a := rfl
@[simp] theorem State.read_drawFr (s : State) (a : Word) : s.drawFr.read a = s.read a := rfl
@[simp] theorem State.read_dropWord (s : State) (a : Word) : s.dropWord.read a = s.read a := rfl
@[simp] theorem State.read_popReg (s : State) (r : GR) (a : Word) : (s.popReg r).read a = s.read a := rfl

end Sys2Proof.Machine
end

