-- ==== Sys2Proof/Laws/Ops.lean ====
section
/-! SUPPORT. For each shared operation, once, all that it can do. -/

namespace Sys2Proof.Machine

/-! ### Storage -/

theorem State.read_write (s : State) (a v b : Word) :
    (s.write a v).read b = if b = a then v else s.read b :=
  Memory.read_write s.mem a v b

@[simp] theorem State.read_write_same (s : State) (a v : Word) : (s.write a v).read a = v :=
  Memory.read_write_same s.mem a v

theorem State.read_write_other (s : State) (a v b : Word) (h : b ≠ a) :
    (s.write a v).read b = s.read b :=
  Memory.read_write_other s.mem a v b h

/-! ### Operands -/

@[simp] theorem effectiveAddress_none (adr : Word) (s : State) : effectiveAddress adr none s = adr := rfl

@[simp] theorem effectiveAddress_some (adr : Word) (g : GR) (s : State) :
    effectiveAddress adr (some g) s = adr + s.reg g := rfl

/-- An effective address depends on the registers alone. -/
theorem effectiveAddress_congr {s t : State} (h : s.gr = t.gr) (adr : Word) (x : Option GR) :
    effectiveAddress adr x s = effectiveAddress adr x t := by
  cases x <;> simp [effectiveAddress, State.reg, h]

/-! ### The finishing step of a register result -/

theorem reg_finish (n : Nat) (r q : GR) (v : Word) (f : FR) (s : State) :
    (finish n r v f s).reg q = if q = r then v else s.reg q :=
  GprFile.get_set s.gr r q v

@[simp] theorem read_finish (n : Nat) (r : GR) (v : Word) (f : FR) (s : State) (a : Word) :
    (finish n r v f s).read a = s.read a := rfl

/-! ### Stack transfers -/

@[simp] theorem State.sp_pushWord (s : State) (v : Word) : (s.pushWord v).sp = s.sp - 1 := rfl

theorem State.reg_pushWord (s : State) (v : Word) (q : GR) :
    (s.pushWord v).reg q = if q = .gr8 then s.sp - 1 else s.reg q :=
  GprFile.get_set s.gr .gr8 q _

theorem State.read_pushWord (s : State) (v b : Word) :
    (s.pushWord v).read b = if b = s.sp - 1 then v else s.read b :=
  Memory.read_write s.mem _ v b

@[simp] theorem State.sp_dropWord (s : State) : s.dropWord.sp = s.sp + 1 := rfl

theorem State.reg_dropWord (s : State) (q : GR) :
    s.dropWord.reg q = if q = .gr8 then s.sp + 1 else s.reg q :=
  GprFile.get_set s.gr .gr8 q _

/-- A pop into a register other than GR8. -/
theorem State.popReg_other (s : State) (r : GR) (h : r ≠ .gr8) :
    s.popReg r = (s.setReg r (s.read s.sp)).setSp (s.sp + 1) := by
  unfold State.popReg State.dropWord State.sp
  rw [State.reg_setReg_other _ _ _ _ (Ne.symm h)]

/-- A pop into GR8 leaves the popped word plus one (D14). -/
theorem State.popReg_gr8 (s : State) : s.popReg .gr8 = s.setSp (s.read s.sp + 1) := rfl

/-- A push of a register other than GR8. -/
theorem State.pushReg_other (s : State) (r : GR) (h : r ≠ .gr8) : s.pushReg r = s.pushWord (s.reg r) := by
  unfold State.pushReg State.pushWord
  simp [State.reg_setSp, h]

/-- The push of GR8 stores the address of its own slot (D14). -/
theorem State.pushReg_gr8 (s : State) : s.pushReg .gr8 = s.pushWord (s.sp - 1) := rfl

/-- What the push of a register leaves in storage: the old value of the register, or for GR8 the address of its own slot, in
the word below the stack; all else as before. -/
theorem State.read_pushReg (s : State) (r : GR) (b : Word) :
    (s.pushReg r).read b =
      if b = s.sp - 1 then (if r = .gr8 then s.sp - 1 else s.reg r) else s.read b := by
  by_cases h : r = .gr8
  · subst h; rw [State.pushReg_gr8, State.read_pushWord, if_pos rfl]
  · rw [State.pushReg_other _ _ h, State.read_pushWord, if_neg h]

theorem State.reg_pushReg (s : State) (r q : GR) :
    (s.pushReg r).reg q = if q = .gr8 then s.sp - 1 else s.reg q := by
  by_cases h : r = .gr8
  · subst h; rw [State.pushReg_gr8, State.reg_pushWord]
  · rw [State.pushReg_other _ _ h, State.reg_pushWord]

/-- What the pop of a register other than GR8 leaves in the registers. -/
theorem State.reg_popReg_other (s : State) (r q : GR) (h : r ≠ .gr8) :
    (s.popReg r).reg q = if q = .gr8 then s.sp + 1 else if q = r then s.read s.sp else s.reg q := by
  rw [State.popReg_other _ _ h, State.reg_setSp, State.reg_setReg]

/-- What repeated pushes keep. -/
theorem State.foldl_pushReg_frame (l : List GR) (s : State) :
    (l.foldl State.pushReg s).pc = s.pc ∧ (l.foldl State.pushReg s).fr = s.fr
      ∧ (l.foldl State.pushReg s).input = s.input ∧ (l.foldl State.pushReg s).output = s.output
      ∧ (l.foldl State.pushReg s).osRet = s.osRet ∧ (l.foldl State.pushReg s).ended = s.ended
      ∧ (l.foldl State.pushReg s).freeCount = s.freeCount
      ∧ (s.mem.wf → (l.foldl State.pushReg s).mem.wf) := by
  induction l generalizing s with
  | nil => exact ⟨rfl, rfl, rfl, rfl, rfl, rfl, rfl, id⟩
  | cons r l ih =>
    obtain ⟨h1, h2, h3, h4, h5, h6, h7, h8⟩ := ih (s.pushReg r)
    refine ⟨h1, h2, h3, h4, h5, h6, h7, fun h => h8 ?_⟩
    rw [State.pushReg_mem]
    exact Memory.wf_write h _ _

/-- What repeated pops keep. -/
theorem State.foldl_popReg_frame (l : List GR) (s : State) :
    (l.foldl State.popReg s).pc = s.pc ∧ (l.foldl State.popReg s).fr = s.fr
      ∧ (l.foldl State.popReg s).mem = s.mem
      ∧ (l.foldl State.popReg s).input = s.input ∧ (l.foldl State.popReg s).output = s.output
      ∧ (l.foldl State.popReg s).osRet = s.osRet ∧ (l.foldl State.popReg s).ended = s.ended
      ∧ (l.foldl State.popReg s).freeCount = s.freeCount := by
  induction l generalizing s with
  | nil => exact ⟨rfl, rfl, rfl, rfl, rfl, rfl, rfl, rfl⟩
  | cons r l ih => exact ih (s.popReg r)

/-! ### Jumps -/

theorem jumpIf_true (adr : Word) (x : Option GR) (s : State) :
    jumpIf true adr x s = s.setPc (effectiveAddress adr x s) := rfl

theorem jumpIf_false (adr : Word) (x : Option GR) (s : State) : jumpIf false adr x s = s.advance 2 := rfl

/-- A jump changes PR alone. -/
theorem jumpIf_eq (c : Bool) (adr : Word) (x : Option GR) (s : State) :
    jumpIf c adr x s = s.setPc (if c then effectiveAddress adr x s else s.nextPc 2) := by
  cases c <;> rfl

/-! ### The services -/

@[simp] theorem storeChars_nil (buf : Word) (m : Memory) : storeChars buf [] m = m := rfl

@[simp] theorem storeChars_cons (buf : Word) (c : Byte) (cs : List Byte) (m : Memory) :
    storeChars buf (c :: cs) m = storeChars (buf + 1) cs (m.write buf (zext16 c)) := rfl

@[simp] theorem loadChars_zero (m : Memory) (buf : Word) : loadChars m buf 0 = [] := rfl

@[simp] theorem loadChars_succ (m : Memory) (buf : Word) (n : Nat) :
    loadChars m buf (n + 1) = (m.read buf).setWidth 8 :: loadChars m (buf + 1) n := rfl

@[simp] theorem loadChars_length (m : Memory) (buf : Word) (n : Nat) : (loadChars m buf n).length = n := by
  induction n generalizing buf with
  | zero => rfl
  | succ n ih => simp [ih]

/-- The address of character `n` from the word after `buf`. -/
theorem charAddress_succ (buf : Word) (n : Nat) :
    buf + 1 + BitVec.ofNat 16 n = buf + BitVec.ofNat 16 (n + 1) := by
  rw [BitVec.add_assoc, BitVec.add_comm 1, BitVec.ofNat_add]; rfl

/-- What storing at most 65536 character codes leaves: each in its word, every other word as before. -/
theorem storeChars_read (cs : List Byte) (buf : Word) (m : Memory) (hl : cs.length ≤ 65536) :
    (∀ n (h : n < cs.length), (storeChars buf cs m).read (buf + BitVec.ofNat 16 n) = zext16 cs[n])
      ∧ ∀ a, (∀ n, n < cs.length → a ≠ buf + BitVec.ofNat 16 n) → (storeChars buf cs m).read a = m.read a := by
  induction cs generalizing buf m with
  | nil => exact ⟨fun n h => absurd h (Nat.not_lt_zero n), fun _ _ => rfl⟩
  | cons c cs ih =>
    rw [List.length_cons] at hl
    obtain ⟨i1, i2⟩ := ih (buf + 1) (m.write buf (zext16 c)) (by omega)
    refine ⟨fun n h => ?_, fun a ha => ?_⟩
    · cases n with
      | zero =>
        rw [storeChars_cons, List.getElem_cons_zero, show buf + BitVec.ofNat 16 0 = buf by simp, i2]
        · simp
        · intro n hn e
          rw [charAddress_succ] at e
          have := congrArg BitVec.toNat (show BitVec.ofNat 16 (n + 1) = (0 : Word) by simpa using e)
          simp at this
          omega
      | succ n =>
        rw [storeChars_cons, List.getElem_cons_succ, ← charAddress_succ]
        exact i1 n (by simpa using h)
    · rw [storeChars_cons, i2]
      · exact Memory.read_write_other _ _ _ _ (by simpa using ha 0 (by simp))
      · intro n hn
        rw [charAddress_succ]
        exact ha (n + 1) (by simp [hn])

/-- Each code that is loaded is the low 8 bits of its word. -/
theorem loadChars_getElem (m : Memory) (k : Nat) (buf : Word) (n : Nat)
    (h : n < (loadChars m buf k).length) :
    (loadChars m buf k)[n] = (m.read (buf + BitVec.ofNat 16 n)).setWidth 8 := by
  induction k generalizing buf n with
  | zero => exact absurd h (Nat.not_lt_zero n)
  | succ k ih =>
    cases n with
    | zero => simp
    | succ n =>
      simp only [loadChars_succ, List.getElem_cons_succ]
      rw [ih, charAddress_succ]

/-- What service 1 leaves, field by field. -/
theorem serviceIn_frame (s : State) :
    (serviceIn s).gr = s.gr ∧ (serviceIn s).pc = s.pc ∧ (serviceIn s).fr = s.fr
      ∧ (serviceIn s).output = s.output ∧ (serviceIn s).osRet = s.osRet
      ∧ (serviceIn s).ended = s.ended ∧ (serviceIn s).freeCount = s.freeCount := by
  unfold serviceIn
  split <;> simp

/-- Service 1 keeps the canonical form of storage. -/
theorem serviceIn_wf {s : State} (h : s.mem.wf) : (serviceIn s).mem.wf := by
  unfold serviceIn
  split
  · rw [State.write_mem]
    exact Memory.wf_write h _ _
  · exact Memory.wf_write (Memory.wf_storeChars _ _ h) _ _

/-- What service 2 can answer. -/
theorem serviceOut_cases (s : State) :
    (sint (s.read (s.reg .gr2)) < 0
      ∧ serviceOut s = .error (.outLengthNegative (s.read (s.reg .gr2)))) ∨
    (0 ≤ sint (s.read (s.reg .gr2)) ∧ serviceOut s =
      .ok { s with
        output := s.output ++ [loadChars s.mem (s.reg .gr1) (uint (s.read (s.reg .gr2)))] }) := by
  unfold serviceOut
  by_cases h : sint (s.read (s.reg .gr2)) < 0
  · exact .inl ⟨h, by simp only [h, if_true]⟩
  · exact .inr ⟨by omega, by simp only [h, if_false]⟩

/-- What the trap can answer. -/
theorem supervisorCall_cases (arg : Word) (s : State) :
    (uint arg = 1 ∧ supervisorCall arg s = .ok (serviceIn s)) ∨
    (uint arg = 2 ∧ supervisorCall arg s = serviceOut s) ∨
    (uint arg ≠ 1 ∧ uint arg ≠ 2 ∧ supervisorCall arg s = .error (.svcArgumentUndefined arg)) := by
  unfold supervisorCall
  by_cases h1 : uint arg = 1
  · exact .inl ⟨h1, by simp only [h1, if_true]⟩
  · by_cases h2 : uint arg = 2
    · exact .inr (.inl ⟨h2, by simp only [h2]; rfl⟩)
    · exact .inr (.inr ⟨h1, h2, by simp only [h1, h2, if_false]⟩)

/-- When the trap is served: registers, PR, FR, the end flag, OS_RET and the draw count are as before, and storage keeps its
canonical form. -/
theorem supervisorCall_ok {arg : Word} {s t : State} (h : supervisorCall arg s = .ok t) :
    t.gr = s.gr ∧ t.pc = s.pc ∧ t.fr = s.fr ∧ t.osRet = s.osRet ∧ t.ended = s.ended
      ∧ t.freeCount = s.freeCount ∧ (s.mem.wf → t.mem.wf) := by
  rcases supervisorCall_cases arg s with ⟨-, e⟩ | ⟨-, e⟩ | ⟨-, -, e⟩
  · rw [e] at h
    obtain rfl := Except.ok.inj h
    obtain ⟨h1, h2, h3, -, h5, h6, h7⟩ := serviceIn_frame s
    exact ⟨h1, h2, h3, h5, h6, h7, serviceIn_wf⟩
  · rcases serviceOut_cases s with ⟨-, e'⟩ | ⟨-, e'⟩
    · rw [e, e'] at h; cases h
    · rw [e, e'] at h
      obtain rfl := Except.ok.inj h
      exact ⟨rfl, rfl, rfl, rfl, rfl, rfl, id⟩
  · rw [e] at h; cases h

/-- The return from a service: FR drawn, PR past the SVC. -/
theorem returnFromService_frame (s : State) :
    (returnFromService s).gr = s.gr ∧ (returnFromService s).mem = s.mem
      ∧ (returnFromService s).pc = s.nextPc 2
      ∧ (returnFromService s).fr = FR.ofBits (Config.freeFlags s.freeCount)
      ∧ (returnFromService s).freeCount = s.freeCount + 1
      ∧ (returnFromService s).input = s.input ∧ (returnFromService s).output = s.output
      ∧ (returnFromService s).osRet = s.osRet ∧ (returnFromService s).ended = s.ended :=
  ⟨rfl, rfl, rfl, rfl, rfl, rfl, rfl, rfl, rfl⟩

@[simp] theorem State.read_returnFromService (s : State) (a : Word) :
    (returnFromService s).read a = s.read a := rfl

@[simp] theorem State.reg_returnFromService (s : State) (r : GR) :
    (returnFromService s).reg r = s.reg r := rfl

end Sys2Proof.Machine
end

