-- ==== Sys2Proof/Laws/Launch.lean ====
section
/-! SUPPORT. Loading words, and the entry into a program (70_reset_and_hazards.md R290). -/

namespace Sys2Proof.Machine

theorem loadWords_nil (ps : List (Nat × ObjModule)) (base : Nat) (a : Word) (m : Memory) :
    loadWords ps base a [] m = .ok m := rfl

/-- Loading one more word: it is placed at `a`, or `a` is left as it is, and the rest follows from `a + 1`. -/
theorem loadWords_cons {ps : List (Nat × ObjModule)} {base : Nat} {a : Word} {x : Src} {xs : List Src}
    {m n : Memory} (h : loadWords ps base a (x :: xs) m = .ok n) :
    (∃ w, relocate ps base x = .ok (some w) ∧ loadWords ps base (a + 1) xs (m.write a w) = .ok n) ∨
    (relocate ps base x = .ok none ∧ loadWords ps base (a + 1) xs m = .ok n) := by
  simp only [loadWords] at h
  split at h
  · cases h
  · rename_i e; exact .inr ⟨e, h⟩
  · rename_i w e; exact .inl ⟨w, e, h⟩

/-- Loading keeps the canonical form of storage. -/
theorem loadWords_wf {ps : List (Nat × ObjModule)} {base : Nat} {a : Word} {xs : List Src}
    {m n : Memory} (hm : m.wf) (h : loadWords ps base a xs m = .ok n) : n.wf := by
  induction xs generalizing a m with
  | nil => obtain rfl := Except.ok.inj h; exact hm
  | cons x xs ih =>
    rcases loadWords_cons h with ⟨w, -, h'⟩ | ⟨-, h'⟩
    · exact ih (Memory.wf_write hm a w) h'
    · exact ih hm h'

/-- A number below 65536 is its word's unsigned value. -/
theorem toNat_w16 (n : Nat) (h : n < 65536) : (w16 n).toNat = n := by
  rw [w16, BitVec.ofInt_natCast, BitVec.toNat_ofNat]
  exact Nat.mod_eq_of_lt h

theorem w16_succ (k : Nat) : w16 k + 1 = w16 ((k + 1 : Nat) : Int) := by
  rw [w16, w16, BitVec.ofInt_natCast, BitVec.ofInt_natCast, BitVec.ofNat_add]; rfl

/-- Loading a program that lies within storage leaves every word outside it as it was. -/
theorem loadWords_outside {ps : List (Nat × ObjModule)} {base k : Nat} {xs : List Src} {m n : Memory}
    (hk : k + xs.length ≤ 65536) (h : loadWords ps base (w16 k) xs m = .ok n) (a : Word)
    (ha : a.toNat < k ∨ k + xs.length ≤ a.toNat) : n.read a = m.read a := by
  induction xs generalizing k m with
  | nil => obtain rfl := Except.ok.inj h; rfl
  | cons x xs ih =>
    rw [List.length_cons] at hk ha
    rcases loadWords_cons h with ⟨w, -, h2⟩ | ⟨-, h2⟩ <;> rw [w16_succ] at h2
    · rw [ih (by omega) h2 (by omega)]
      apply Memory.read_write_other
      rintro rfl
      rw [toNat_w16 k (by omega)] at ha
      omega
    · exact ih (by omega) h2 (by omega)

/-- An entry name that is linked is that of a program, whose execution start address it gets (R234). -/
theorem linkName_some {name : Label} {ps : List (Nat × ObjModule)} {w : Word} (h : linkName name ps = some w) :
    ∃ b q, (b, q) ∈ ps ∧ q.name = name ∧ w = w16 (b + q.start) := by
  induction ps with
  | nil => cases h
  | cons p ps ih =>
    obtain ⟨b, q⟩ := p
    unfold linkName at h
    split at h
    · rename_i hq
      exact ⟨b, q, List.mem_cons_self, hq, (Option.some.inj h).symm⟩
    · obtain ⟨b', q', hm, hn, hw⟩ := ih h
      exact ⟨b', q', List.mem_cons_of_mem _ hm, hn, hw⟩

/-- Where no two programs have one entry name, each program's name is linked to that program. -/
theorem linkName_mem {ps : List (Nat × ObjModule)} (hd : distinct (ps.map fun p => p.2.name) = true)
    {b : Nat} {q : ObjModule} (hm : (b, q) ∈ ps) : linkName q.name ps = some (w16 (b + q.start)) := by
  induction ps with
  | nil => cases hm
  | cons p ps ih =>
    simp only [List.map_cons, distinct, Bool.and_eq_true] at hd
    rcases List.mem_cons.1 hm with rfl | hm
    · simp [linkName]
    · have hne : p.2.name ≠ q.name := by
        intro e
        have h1 := hd.1
        simp only [Bool.not_eq_true', List.contains_eq_mem, decide_eq_false_iff_not, List.mem_map] at h1
        exact h1 ⟨(b, q), hm, e.symm⟩
      rw [linkName, if_neg hne, ih hd.2 hm]

/-- Every word of a program that loads has a value or is reserved. -/
theorem loadWords_relocates {ps : List (Nat × ObjModule)} {base : Nat} {a : Word} {xs : List Src}
    {m n : Memory} (h : loadWords ps base a xs m = .ok n) {x : Src} (hx : x ∈ xs) :
    ∃ v, relocate ps base x = .ok v := by
  induction xs generalizing a m with
  | nil => cases hx
  | cons y ys ih =>
    rcases loadWords_cons h with ⟨w, h1, h2⟩ | ⟨h1, h2⟩
    · rcases List.mem_cons.1 hx with rfl | hx
      · exact ⟨_, h1⟩
      · exact ih h2 hx
    · rcases List.mem_cons.1 hx with rfl | hx
      · exact ⟨_, h1⟩
      · exact ih h2 hx

theorem loadAll_wf {ps qs : List (Nat × ObjModule)} {m n : Memory} (hm : m.wf)
    (h : loadAll ps qs m = .ok n) : n.wf := by
  induction qs generalizing m with
  | nil => obtain rfl := Except.ok.inj h; exact hm
  | cons q qs ih =>
    obtain ⟨base, p⟩ := q
    simp only [loadAll] at h
    split at h
    · cases h
    · rename_i m' e; exact ih (loadWords_wf hm e) h

/-- The launch parameters that `State.reset` stands for, but for the program, which is none (log 3). -/
def resetLaunch : Launch :=
  { programs := [], stackTop := 0xF000, stackWords := 1, osRet := Config.osRet
    initGr := ⟨0, 0, 0, 0, 0, 0, 0, 0, 0⟩, initFr := ⟨false, false, false⟩, initMem := [], input := [] }

/-- `State.reset` is what the OS's entry gives at those parameters (R290, R36). -/
theorem State.reset_eq_enter : State.reset = resetLaunch.enter [] Config.startAddress := by decide

/-- What the entry leaves, field by field. -/
theorem Launch.enter_fields (l : Launch) (m : Memory) (e : Word) :
    (l.enter m e).gr = (l.initGr.set .gr8 (w16 l.stackTop)).set .gr8 (w16 l.stackTop - 1)
      ∧ (l.enter m e).pc = e ∧ (l.enter m e).fr = l.initFr
      ∧ (l.enter m e).mem = m.write (w16 l.stackTop - 1) l.osRet
      ∧ (l.enter m e).input = l.input ∧ (l.enter m e).output = []
      ∧ (l.enter m e).osRet = l.osRet ∧ (l.enter m e).ended = false := by
  refine ⟨?_, rfl, rfl, ?_, rfl, rfl, rfl, rfl⟩ <;> simp [Launch.enter, State.sp, State.reg_setSp]

end Sys2Proof.Machine
end

