-- ==== Sys2Proof/Laws/PerInstr.lean ====
section
/-! SUPPORT. Statements for every instruction, one lemma per constructor: the words of an encoding (30_encoding.md R80,
R86). -/

namespace Sys2Proof.Laws

/-- An encoding has one word or two, two exactly when the opcode map gives the OP of its first word a format with adr. -/
def EncodedLength.Statement (i : Instr) : Prop :=
  ∃ w0 rest, encode i = w0 :: rest ∧ i.words = rest.length + 1 ∧
    match opRow (opField w0) with
    | some (.ra _) => rest.length = 1
    | some (.a _) => rest.length = 1
    | some (.rr _) => rest.length = 0
    | some (.r _) => rest.length = 0
    | some (.n _) => rest.length = 0
    | none => False

/-- The check of one encoding: its first word has the OP of a row. -/
theorem encodedLength_of {i : Instr} {op rf xf : Nat} {rest : List Word}
    (h : encode i = word0 op rf xf :: rest) (h1 : op < 256) (h2 : rf < 16) (h3 : xf < 16)
    (h4 : match opRow op with
      | some (.ra _) => rest.length = 1
      | some (.a _) => rest.length = 1
      | some (.rr _) => rest.length = 0
      | some (.r _) => rest.length = 0
      | some (.n _) => rest.length = 0
      | none => False) : EncodedLength.Statement i :=
  ⟨_, rest, h, by simp [Instr.words, h], by rw [opField_word0 h1 h2 h3]; exact h4⟩

theorem EncodedLength.nop : EncodedLength.Statement .nop :=
  encodedLength_of rfl (by decide) (by decide) (by decide) rfl

theorem EncodedLength.ldMem (r : GR) (adr : Word) (x : Option GR) : EncodedLength.Statement (.ldMem r adr x) :=
  encodedLength_of rfl (by decide) (lt_trans r.num_lt (by decide)) (lt_trans (indexNum_lt x) (by decide)) rfl

theorem EncodedLength.st (r : GR) (adr : Word) (x : Option GR) : EncodedLength.Statement (.st r adr x) :=
  encodedLength_of rfl (by decide) (lt_trans r.num_lt (by decide)) (lt_trans (indexNum_lt x) (by decide)) rfl

theorem EncodedLength.lad (r : GR) (adr : Word) (x : Option GR) : EncodedLength.Statement (.lad r adr x) :=
  encodedLength_of rfl (by decide) (lt_trans r.num_lt (by decide)) (lt_trans (indexNum_lt x) (by decide)) rfl

theorem EncodedLength.ldReg (r1 : GR) (r2 : GR) : EncodedLength.Statement (.ldReg r1 r2) :=
  encodedLength_of rfl (by decide) (lt_trans r1.num_lt (by decide)) (lt_trans r2.num_lt (by decide)) rfl

theorem EncodedLength.addaMem (r : GR) (adr : Word) (x : Option GR) : EncodedLength.Statement (.addaMem r adr x) :=
  encodedLength_of rfl (by decide) (lt_trans r.num_lt (by decide)) (lt_trans (indexNum_lt x) (by decide)) rfl

theorem EncodedLength.subaMem (r : GR) (adr : Word) (x : Option GR) : EncodedLength.Statement (.subaMem r adr x) :=
  encodedLength_of rfl (by decide) (lt_trans r.num_lt (by decide)) (lt_trans (indexNum_lt x) (by decide)) rfl

theorem EncodedLength.addlMem (r : GR) (adr : Word) (x : Option GR) : EncodedLength.Statement (.addlMem r adr x) :=
  encodedLength_of rfl (by decide) (lt_trans r.num_lt (by decide)) (lt_trans (indexNum_lt x) (by decide)) rfl

theorem EncodedLength.sublMem (r : GR) (adr : Word) (x : Option GR) : EncodedLength.Statement (.sublMem r adr x) :=
  encodedLength_of rfl (by decide) (lt_trans r.num_lt (by decide)) (lt_trans (indexNum_lt x) (by decide)) rfl

theorem EncodedLength.addaReg (r1 : GR) (r2 : GR) : EncodedLength.Statement (.addaReg r1 r2) :=
  encodedLength_of rfl (by decide) (lt_trans r1.num_lt (by decide)) (lt_trans r2.num_lt (by decide)) rfl

theorem EncodedLength.subaReg (r1 : GR) (r2 : GR) : EncodedLength.Statement (.subaReg r1 r2) :=
  encodedLength_of rfl (by decide) (lt_trans r1.num_lt (by decide)) (lt_trans r2.num_lt (by decide)) rfl

theorem EncodedLength.addlReg (r1 : GR) (r2 : GR) : EncodedLength.Statement (.addlReg r1 r2) :=
  encodedLength_of rfl (by decide) (lt_trans r1.num_lt (by decide)) (lt_trans r2.num_lt (by decide)) rfl

theorem EncodedLength.sublReg (r1 : GR) (r2 : GR) : EncodedLength.Statement (.sublReg r1 r2) :=
  encodedLength_of rfl (by decide) (lt_trans r1.num_lt (by decide)) (lt_trans r2.num_lt (by decide)) rfl

theorem EncodedLength.andMem (r : GR) (adr : Word) (x : Option GR) : EncodedLength.Statement (.andMem r adr x) :=
  encodedLength_of rfl (by decide) (lt_trans r.num_lt (by decide)) (lt_trans (indexNum_lt x) (by decide)) rfl

theorem EncodedLength.orMem (r : GR) (adr : Word) (x : Option GR) : EncodedLength.Statement (.orMem r adr x) :=
  encodedLength_of rfl (by decide) (lt_trans r.num_lt (by decide)) (lt_trans (indexNum_lt x) (by decide)) rfl

theorem EncodedLength.xorMem (r : GR) (adr : Word) (x : Option GR) : EncodedLength.Statement (.xorMem r adr x) :=
  encodedLength_of rfl (by decide) (lt_trans r.num_lt (by decide)) (lt_trans (indexNum_lt x) (by decide)) rfl

theorem EncodedLength.andReg (r1 : GR) (r2 : GR) : EncodedLength.Statement (.andReg r1 r2) :=
  encodedLength_of rfl (by decide) (lt_trans r1.num_lt (by decide)) (lt_trans r2.num_lt (by decide)) rfl

theorem EncodedLength.orReg (r1 : GR) (r2 : GR) : EncodedLength.Statement (.orReg r1 r2) :=
  encodedLength_of rfl (by decide) (lt_trans r1.num_lt (by decide)) (lt_trans r2.num_lt (by decide)) rfl

theorem EncodedLength.xorReg (r1 : GR) (r2 : GR) : EncodedLength.Statement (.xorReg r1 r2) :=
  encodedLength_of rfl (by decide) (lt_trans r1.num_lt (by decide)) (lt_trans r2.num_lt (by decide)) rfl

theorem EncodedLength.cpaMem (r : GR) (adr : Word) (x : Option GR) : EncodedLength.Statement (.cpaMem r adr x) :=
  encodedLength_of rfl (by decide) (lt_trans r.num_lt (by decide)) (lt_trans (indexNum_lt x) (by decide)) rfl

theorem EncodedLength.cplMem (r : GR) (adr : Word) (x : Option GR) : EncodedLength.Statement (.cplMem r adr x) :=
  encodedLength_of rfl (by decide) (lt_trans r.num_lt (by decide)) (lt_trans (indexNum_lt x) (by decide)) rfl

theorem EncodedLength.cpaReg (r1 : GR) (r2 : GR) : EncodedLength.Statement (.cpaReg r1 r2) :=
  encodedLength_of rfl (by decide) (lt_trans r1.num_lt (by decide)) (lt_trans r2.num_lt (by decide)) rfl

theorem EncodedLength.cplReg (r1 : GR) (r2 : GR) : EncodedLength.Statement (.cplReg r1 r2) :=
  encodedLength_of rfl (by decide) (lt_trans r1.num_lt (by decide)) (lt_trans r2.num_lt (by decide)) rfl

theorem EncodedLength.sla (r : GR) (adr : Word) (x : Option GR) : EncodedLength.Statement (.sla r adr x) :=
  encodedLength_of rfl (by decide) (lt_trans r.num_lt (by decide)) (lt_trans (indexNum_lt x) (by decide)) rfl

theorem EncodedLength.sra (r : GR) (adr : Word) (x : Option GR) : EncodedLength.Statement (.sra r adr x) :=
  encodedLength_of rfl (by decide) (lt_trans r.num_lt (by decide)) (lt_trans (indexNum_lt x) (by decide)) rfl

theorem EncodedLength.sll (r : GR) (adr : Word) (x : Option GR) : EncodedLength.Statement (.sll r adr x) :=
  encodedLength_of rfl (by decide) (lt_trans r.num_lt (by decide)) (lt_trans (indexNum_lt x) (by decide)) rfl

theorem EncodedLength.srl (r : GR) (adr : Word) (x : Option GR) : EncodedLength.Statement (.srl r adr x) :=
  encodedLength_of rfl (by decide) (lt_trans r.num_lt (by decide)) (lt_trans (indexNum_lt x) (by decide)) rfl

theorem EncodedLength.jmi (adr : Word) (x : Option GR) : EncodedLength.Statement (.jmi adr x) :=
  encodedLength_of rfl (by decide) (by decide) (lt_trans (indexNum_lt x) (by decide)) rfl

theorem EncodedLength.jnz (adr : Word) (x : Option GR) : EncodedLength.Statement (.jnz adr x) :=
  encodedLength_of rfl (by decide) (by decide) (lt_trans (indexNum_lt x) (by decide)) rfl

theorem EncodedLength.jze (adr : Word) (x : Option GR) : EncodedLength.Statement (.jze adr x) :=
  encodedLength_of rfl (by decide) (by decide) (lt_trans (indexNum_lt x) (by decide)) rfl

theorem EncodedLength.jump (adr : Word) (x : Option GR) : EncodedLength.Statement (.jump adr x) :=
  encodedLength_of rfl (by decide) (by decide) (lt_trans (indexNum_lt x) (by decide)) rfl

theorem EncodedLength.jpl (adr : Word) (x : Option GR) : EncodedLength.Statement (.jpl adr x) :=
  encodedLength_of rfl (by decide) (by decide) (lt_trans (indexNum_lt x) (by decide)) rfl

theorem EncodedLength.jov (adr : Word) (x : Option GR) : EncodedLength.Statement (.jov adr x) :=
  encodedLength_of rfl (by decide) (by decide) (lt_trans (indexNum_lt x) (by decide)) rfl

theorem EncodedLength.push (adr : Word) (x : Option GR) : EncodedLength.Statement (.push adr x) :=
  encodedLength_of rfl (by decide) (by decide) (lt_trans (indexNum_lt x) (by decide)) rfl

theorem EncodedLength.pop (r : GR) : EncodedLength.Statement (.pop r) :=
  encodedLength_of rfl (by decide) (lt_trans r.num_lt (by decide)) (by decide) rfl

theorem EncodedLength.rpush : EncodedLength.Statement .rpush :=
  encodedLength_of rfl (by decide) (by decide) (by decide) rfl

theorem EncodedLength.rpop : EncodedLength.Statement .rpop :=
  encodedLength_of rfl (by decide) (by decide) (by decide) rfl

theorem EncodedLength.call (adr : Word) (x : Option GR) : EncodedLength.Statement (.call adr x) :=
  encodedLength_of rfl (by decide) (by decide) (lt_trans (indexNum_lt x) (by decide)) rfl

theorem EncodedLength.ret : EncodedLength.Statement .ret :=
  encodedLength_of rfl (by decide) (by decide) (by decide) rfl

theorem EncodedLength.svc (adr : Word) (x : Option GR) : EncodedLength.Statement (.svc adr x) :=
  encodedLength_of rfl (by decide) (by decide) (lt_trans (indexNum_lt x) (by decide)) rfl

end Sys2Proof.Laws
end

