-- ==== Sys2Proof/Laws/Shift.lean ====
section
/-! SUPPORT. The shift loop: what a repetition of one-bit steps gives, step by step. -/

namespace Sys2Proof.Machine

@[simp] theorem shiftLoop_zero (step : Word → Bool × Word) (p : Bool × Word) : shiftLoop step 0 p = p := rfl

theorem shiftLoop_succ (step : Word → Bool × Word) (n : Nat) (p : Bool × Word) :
    shiftLoop step (n + 1) p = shiftLoop step n (step p.2) := rfl

/-- The last step comes last: `n + 1` steps are `n` steps and one more. -/
theorem shiftLoop_last (step : Word → Bool × Word) (n : Nat) (p : Bool × Word) :
    shiftLoop step (n + 1) p = step (shiftLoop step n p).2 := by
  induction n generalizing p with
  | zero => rfl
  | succ n ih => exact ih (step p.2)

/-- `m + n` steps are `m` steps, then `n`. -/
theorem shiftLoop_add (step : Word → Bool × Word) (m n : Nat) (p : Bool × Word) :
    shiftLoop step (m + n) p = shiftLoop step n (shiftLoop step m p) := by
  induction m generalizing p with
  | zero => simp
  | succ m ih => rw [Nat.succ_add]; exact ih (step p.2)

/-- Once a step changes nothing more, no repetition does. -/
theorem shiftLoop_fixed (step : Word → Bool × Word) {p : Bool × Word} (h : step p.2 = p) (n : Nat) :
    shiftLoop step n p = p := by
  induction n with
  | zero => rfl
  | succ n ih => rw [shiftLoop_succ, h, ih]

theorem shift_zero (step : Word → Bool × Word) (v : Word) : shift step v 0 = (false, v) := rfl

theorem shift_succ (step : Word → Bool × Word) (v : Word) (n : Nat) :
    shift step v (n + 1) = step (shift step v n).2 :=
  shiftLoop_last step n (false, v)

/-! ### One step, bit by bit (R162 to R165) -/

/-- SLA: bit 14 is sent out; bit 15 stays, bit 0 becomes 0, every other bit takes the place above. -/
theorem stepSla_bits (v : Word) (i : Nat) :
    (stepSla v).2.getLsbD i =
      (if i = 15 then v.getLsbD 15 else decide (0 < i ∧ i < 15) && v.getLsbD (i - 1)) := by
  by_cases h : i < 16
  · interval_cases i <;> simp [stepSla]
  · rw [BitVec.getLsbD_of_ge _ _ (by omega), if_neg (by omega)]
    simp; omega

/-- SRA: bit 0 is sent out; bit 15 stays, every other bit is the one above it. -/
theorem stepSra_bits (v : Word) (i : Nat) (h : i < 16) :
    (stepSra v).2.getLsbD i = v.getLsbD (if i = 15 then 15 else i + 1) := by
  interval_cases i <;> simp [stepSra]

/-- SLL: bit 15 is sent out; bit 0 becomes 0, every other bit takes the place above. -/
theorem stepSll_bits (v : Word) (i : Nat) (h : i < 16) :
    (stepSll v).2.getLsbD i = (decide (0 < i) && v.getLsbD (i - 1)) := by
  interval_cases i <;> simp [stepSll]

/-- SRL: bit 0 is sent out; bit 15 becomes 0, every other bit is the one above it. -/
theorem stepSrl_bits (v : Word) (i : Nat) (h : i < 16) :
    (stepSrl v).2.getLsbD i = (decide (i < 15) && v.getLsbD (i + 1)) := by
  interval_cases i <;> simp [stepSrl]

end Sys2Proof.Machine
end

