-- ==== Sys2Proof/Laws/Step.lean ====
section
/-! SUPPORT. What a fetch, a step and an SVC can do, said once. -/

namespace Sys2Proof.Machine

/-! ### Fetch -/

/-- A fetch answers what the decoder reads from the words at the address. -/
theorem fetchAt_ok_iff (s : State) (a : Word) (i : Instr) :
    fetchAt s a = .ok i ↔ ∃ rest, decode [s.read a, s.read (a + 1)] = .ok (i, rest) := by
  unfold fetchAt
  cases h : decodeHead (s.read a) with
  | error e => simp [decode, h]
  | ok hd => cases hd <;> simp [decode, h]

/-- A fetch is rejected exactly when its first word is. -/
theorem fetchAt_error_iff (s : State) (a : Word) (e : DecodeError) :
    fetchAt s a = .error e ↔ decodeHead (s.read a) = .error e := by
  unfold fetchAt
  cases h : decodeHead (s.read a) with
  | error e' => simp
  | ok hd => cases hd <;> simp

/-! ### Step -/

/-- All that a step can answer. -/
theorem step_cases (s : State) :
    (s.ended = true ∧ step s = .refused .runEnded) ∨
    (s.ended = false ∧ s.pc = s.osRet ∧ step s = .refused .osReturnNotByRet) ∨
    (s.ended = false ∧ s.pc ≠ s.osRet ∧ (∃ e, decodeHead (s.read s.pc) = .error e)
      ∧ step s = .fault (.illegalInstruction (s.read s.pc) s.pc)) ∨
    (s.ended = false ∧ s.pc ≠ s.osRet ∧ ∃ i, fetchAt s s.pc = .ok i ∧ step s = exec i s) := by
  unfold step
  cases he : s.ended with
  | true => exact .inl ⟨rfl, rfl⟩
  | false =>
    by_cases hp : s.pc = s.osRet
    · exact .inr (.inl ⟨rfl, hp, by simp [hp]⟩)
    · cases hf : fetchAt s s.pc with
      | error e =>
        exact .inr (.inr (.inl ⟨rfl, hp, ⟨e, (fetchAt_error_iff s s.pc e).mp hf⟩, by simp [hp]⟩))
      | ok i => exact .inr (.inr (.inr ⟨rfl, hp, i, rfl, by simp [hp]⟩))

/-- A step that answers a next state ran the instruction fetched at PR. -/
theorem step_next {s t : State} (h : step s = .next t) :
    s.ended = false ∧ s.pc ≠ s.osRet ∧ ∃ i, fetchAt s s.pc = .ok i ∧ exec i s = .next t := by
  rcases step_cases s with ⟨-, e⟩ | ⟨-, -, e⟩ | ⟨-, -, -, e⟩ | ⟨h1, h2, i, h3, e⟩
  · rw [e] at h; cases h
  · rw [e] at h; cases h
  · rw [e] at h; cases h
  · exact ⟨h1, h2, i, h3, e ▸ h⟩

/-- An SVC answers the return from its service, or the trap's refusal. -/
theorem execSvc_cases (adr : Word) (x : Option GR) (s : State) :
    (∃ t, supervisorCall (effectiveAddress adr x s) s = .ok t
      ∧ exec (.svc adr x) s = .next (returnFromService t)) ∨
    (∃ r, supervisorCall (effectiveAddress adr x s) s = .error r
      ∧ exec (.svc adr x) s = .refused r) := by
  cases h : supervisorCall (effectiveAddress adr x s) s with
  | ok t => exact .inl ⟨t, rfl, by simp only [exec, execSvc, h]⟩
  | error r => exact .inr ⟨r, rfl, by simp only [exec, execSvc, h]⟩

end Sys2Proof.Machine
end

