-- ==== Sys2Proof/Tests/Slice0.lean ====
section
/-! SUPPORT. Tests: ill-formed terms, words written out from the encoding, one step per instruction against the values of
95_test_vectors.md, the assembler against 48_casl2_assembler.md, and states that meet the hypotheses of the statements. -/

namespace Sys2Proof.Tests

open Sys2Proof.Machine

/-! ### Helpers -/

/-- A flag register from its three bits, in the order OF SF ZF. -/
def fr (o s z : Bool) : FR := ⟨o, s, z⟩

/-- A small state with PR 0x0100, the given FR, registers and words of storage. -/
def start (f : FR) (regs : List (GR × Word)) (mem : List (Word × Word)) : State :=
  let s : State := { State.reset with pc := 0x0100, fr := f }
  let s := regs.foldl (fun s p => s.setReg p.1 p.2) s
  mem.foldl (fun s p => s.write p.1 p.2) s

/-- One step with the two given words at PR. -/
def run (w0 w1 : Word) (s : State) : Host.Outcome State Fault Refusal := step (placeInstruction s w0 w1)

/-- What one sees of the next state, if there is one. -/
def view {α : Type} (o : Host.Outcome State Fault Refusal) (f : State → α) : Option α :=
  match o with
  | .next t => some (f t)
  | _ => none

/-- Does an outcome go on? -/
def goesOn (o : Host.Outcome State Fault Refusal) : Bool :=
  match o with
  | .next _ => true
  | _ => false

/-- A register, FR and PR. -/
def regFrPc (r : GR) (t : State) : Word × FR × Word := (t.reg r, t.fr, t.pc)

/-! ### Well-formedness: GR0 is no index register (R22) -/

theorem test_gr0_indexes_no_register_form : ∀ i ∈ ([
    .ldMem .gr1 5 (some .gr0),
    .st .gr1 5 (some .gr0),
    .lad .gr1 5 (some .gr0),
    .addaMem .gr1 5 (some .gr0),
    .subaMem .gr1 5 (some .gr0),
    .addlMem .gr1 5 (some .gr0),
    .sublMem .gr1 5 (some .gr0),
    .andMem .gr1 5 (some .gr0),
    .orMem .gr1 5 (some .gr0),
    .xorMem .gr1 5 (some .gr0),
    .cpaMem .gr1 5 (some .gr0),
    .cplMem .gr1 5 (some .gr0),
    .sla .gr1 5 (some .gr0),
    .sra .gr1 5 (some .gr0),
    .sll .gr1 5 (some .gr0),
    .srl .gr1 5 (some .gr0)] : List Instr),
    wellFormed i = false := by decide

theorem test_gr0_indexes_no_address_form : ∀ i ∈ ([
    .jmi 5 (some .gr0), .jnz 5 (some .gr0), .jze 5 (some .gr0), .jump 5 (some .gr0), .jpl 5 (some .gr0),
    .jov 5 (some .gr0), .push 5 (some .gr0), .call 5 (some .gr0), .svc 5 (some .gr0)] : List Instr),
    wellFormed i = false := by decide

theorem test_gr0_is_a_register : WellFormed (.ldMem .gr0 5 none) ∧ WellFormed (.addlReg .gr0 .gr0)
    ∧ WellFormed (.push 5 (some .gr8)) := by decide

/-! ### Decode: a word of each constructor, written out by R81 and R84 (many are those of 95_test_vectors.md 2.1) -/

theorem test_decode_nop : decode [0x0000] = .ok (.nop, []) := by rfl
theorem test_decode_ldMem : decode [0x1012, 0x1234] = .ok (.ldMem .gr1 0x1234 (some .gr2), []) := by rfl
theorem test_decode_st : decode [0x1100, 0x0064] = .ok (.st .gr0 100 none, []) := by rfl
theorem test_decode_lad : decode [0x1270, 0xFFFF] = .ok (.lad .gr7 0xFFFF none, []) := by rfl
theorem test_decode_ldReg : decode [0x1483] = .ok (.ldReg .gr8 .gr3, []) := by rfl
theorem test_decode_addaMem : decode [0x2001, 0x1012] = .ok (.addaMem .gr0 0x1012 (some .gr1), []) := by rfl
theorem test_decode_subaMem : decode [0x2137, 0x0001] = .ok (.subaMem .gr3 1 (some .gr7), []) := by rfl
theorem test_decode_addlMem : decode [0x2246, 0x0002] = .ok (.addlMem .gr4 2 (some .gr6), []) := by rfl
theorem test_decode_sublMem : decode [0x2358, 0x0002] = .ok (.sublMem .gr5 2 (some .gr8), []) := by rfl
theorem test_decode_addaReg : decode [0x2411] = .ok (.addaReg .gr1 .gr1, []) := by rfl
theorem test_decode_subaReg : decode [0x2526] = .ok (.subaReg .gr2 .gr6, []) := by rfl
theorem test_decode_addlReg : decode [0x2601] = .ok (.addlReg .gr0 .gr1, []) := by rfl
theorem test_decode_sublReg : decode [0x2778] = .ok (.sublReg .gr7 .gr8, []) := by rfl
theorem test_decode_andMem : decode [0x3080, 0x8000] = .ok (.andMem .gr8 0x8000 none, []) := by rfl
theorem test_decode_orMem : decode [0x3165, 0x0000] = .ok (.orMem .gr6 0 (some .gr5), []) := by rfl
theorem test_decode_xorMem : decode [0x3218, 0xFFFF] = .ok (.xorMem .gr1 0xFFFF (some .gr8), []) := by rfl
theorem test_decode_andReg : decode [0x3422] = .ok (.andReg .gr2 .gr2, []) := by rfl
theorem test_decode_orReg : decode [0x3540] = .ok (.orReg .gr4 .gr0, []) := by rfl
theorem test_decode_xorReg : decode [0x3608] = .ok (.xorReg .gr0 .gr8, []) := by rfl
theorem test_decode_cpaMem : decode [0x4010, 0x1011] = .ok (.cpaMem .gr1 0x1011 none, []) := by rfl
theorem test_decode_cplMem : decode [0x4120, 0x3000] = .ok (.cplMem .gr2 0x3000 none, []) := by rfl
theorem test_decode_cpaReg : decode [0x4412] = .ok (.cpaReg .gr1 .gr2, []) := by rfl
theorem test_decode_cplReg : decode [0x4587] = .ok (.cplReg .gr8 .gr7, []) := by rfl
theorem test_decode_sla : decode [0x5013, 0x0000] = .ok (.sla .gr1 0 (some .gr3), []) := by rfl
theorem test_decode_sra : decode [0x5110, 0x0001] = .ok (.sra .gr1 1 none, []) := by rfl
theorem test_decode_sll : decode [0x5220, 0x0004] = .ok (.sll .gr2 4 none, []) := by rfl
theorem test_decode_srl : decode [0x5320, 0x0001] = .ok (.srl .gr2 1 none, []) := by rfl
theorem test_decode_jmi : decode [0x6100, 0x2000] = .ok (.jmi 0x2000 none, []) := by rfl
theorem test_decode_jnz : decode [0x6204, 0x2000] = .ok (.jnz 0x2000 (some .gr4), []) := by rfl
theorem test_decode_jze : decode [0x6300, 0x100E] = .ok (.jze 0x100E none, []) := by rfl
theorem test_decode_jump : decode [0x6401, 0xFFFF] = .ok (.jump 0xFFFF (some .gr1), []) := by rfl
theorem test_decode_jpl : decode [0x6500, 0x2000] = .ok (.jpl 0x2000 none, []) := by rfl
theorem test_decode_jov : decode [0x6608, 0x0001] = .ok (.jov 1 (some .gr8), []) := by rfl
theorem test_decode_push : decode [0x7001, 0x0000] = .ok (.push 0 (some .gr1), []) := by rfl
theorem test_decode_pop : decode [0x7180] = .ok (.pop .gr8, []) := by rfl
theorem test_decode_rpush : decode [0x7200] = .ok (.rpush, []) := by rfl
theorem test_decode_rpop : decode [0x7300] = .ok (.rpop, []) := by rfl
theorem test_decode_call : decode [0x8003, 0x0100] = .ok (.call 0x0100 (some .gr3), []) := by rfl
theorem test_decode_ret : decode [0x8100] = .ok (.ret, []) := by rfl
theorem test_decode_svc : decode [0xF000, 0x0002] = .ok (.svc 2 none, []) := by rfl

theorem test_decode_leaves_the_rest : decode [0x2411, 0x8100] = .ok (.addaReg .gr1 .gr1, [0x8100]) := by rfl

/-- The illegal words of 95_test_vectors.md 2.1, with the reason that R90 gives. -/
theorem test_illegal_words :
    decodeHead 0x1300 = .error (.unknownOpcode 0x1300) ∧ decodeHead 0x5490 = .error (.unknownOpcode 0x5490)
    ∧ decodeHead 0xFFFF = .error (.unknownOpcode 0xFFFF) ∧ decodeHead 0x1090 = .error (.badRegister 0x1090)
    ∧ decodeHead 0x100A = .error (.badIndex 0x100A) ∧ decodeHead 0x1489 = .error (.badRegister 0x1489)
    ∧ decodeHead 0x6410 = .error (.unusedFieldNotZero 0x6410)
    ∧ decodeHead 0xF010 = .error (.unusedFieldNotZero 0xF010)
    ∧ decodeHead 0x7101 = .error (.unusedFieldNotZero 0x7101)
    ∧ decodeHead 0x7210 = .error (.unusedFieldNotZero 0x7210)
    ∧ decodeHead 0x8101 = .error (.unusedFieldNotZero 0x8101)
    ∧ decodeHead 0x0001 = .error (.unusedFieldNotZero 0x0001) :=
  ⟨rfl, rfl, rfl, rfl, rfl, rfl, rfl, rfl, rfl, rfl, rfl, rfl⟩

/-- The table's bits: the second word is bits 31 to 16; bits above the table's width read as 0. -/
theorem test_table_words : decodeTableWord 32 0x12341012 = some (.ldMem .gr1 0x1234 (some .gr2))
    ∧ decodeTableWord 16 0xFFFF7200 = some .rpush ∧ decodeTableWord 16 0x1300 = none := ⟨rfl, rfl, rfl⟩

/-- The first instruction after reset is the one that the fetch word holds. -/
theorem test_fetch_word_runs : view (step (State.reset.withFetchWord 32 0x00051210)) (regFrPc .gr1)
    = some (5, fr false false false, 0x1002) := by decide

/-! ### One step per instruction, with the values of 95_test_vectors.md 2.2 to 2.10 -/

/-! Load, store, load address (2.2) -/

theorem test_ld_index_wraps : view (run 0x1012 0x1234 (start (fr true false false) [(.gr2, 0xFFFF)] [(0x1233, 0x8001)]))
    (regFrPc .gr1) = some (0x8001, fr false true false, 0x0102) := by decide
theorem test_ld_address_from_old_register : view (run 0x1011 0 (start (fr true true true) [(.gr1, 2)] [(2, 0x7777)]))
    (regFrPc .gr1) = some (0x7777, fr false false false, 0x0102) := by decide
theorem test_ld_register : view (run 0x1433 0 (start (fr true true true) [(.gr3, 3)] []))
    (regFrPc .gr3) = some (3, fr false false false, 0x0101) := by decide
theorem test_st_stores_and_keeps_fr : view (run 0x1121 0x2000 (start (fr true true true) [(.gr1, 2), (.gr2, 0xFFFF)] []))
    (fun t => (t.read 0x2002, t.fr)) = some (0xFFFF, fr true true true) := by decide
theorem test_st_sp_at_its_own_address : view (run 0x1188 0 (start (fr false false false) [(.gr8, 0xF000)] []))
    (fun t => t.read 0xF000) = some 0xF000 := by decide
theorem test_lad_minus_one : view (run 0x1270 0xFFFF (start (fr true true true) [] []))
    (regFrPc .gr7) = some (0xFFFF, fr true true true, 0x0102) := by decide
theorem test_lad_increments : view (run 0x1211 1 (start (fr false true false) [(.gr1, 2)] []))
    (regFrPc .gr1) = some (3, fr false true false, 0x0102) := by decide

/-! Add and subtract (2.3) -/

theorem test_adda_overflows : view (run 0x2412 0 (start (fr false false false) [(.gr1, 0x7FFF), (.gr2, 1)] []))
    (regFrPc .gr1) = some (0x8000, fr true true false, 0x0101) := by decide
theorem test_adda_storage : view (run 0x2010 0x3000 (start (fr false false false) [(.gr1, 2)] [(0x3000, 0x7FFF)]))
    (regFrPc .gr1) = some (0x8001, fr true true false, 0x0102) := by decide
theorem test_addl_carries : view (run 0x2612 0 (start (fr false false false) [(.gr1, 0xFFFF), (.gr2, 1)] []))
    (regFrPc .gr1) = some (0, fr true false true, 0x0101) := by decide
theorem test_addl_storage : view (run 0x2210 0x3000 (start (fr false false false) [(.gr1, 0x7FFF)] [(0x3000, 0xFFFF)]))
    (regFrPc .gr1) = some (0x7FFE, fr true false false, 0x0102) := by decide
theorem test_suba_overflows : view (run 0x2512 0 (start (fr false false false) [(.gr1, 0), (.gr2, 0x8000)] []))
    (regFrPc .gr1) = some (0x8000, fr true true false, 0x0101) := by decide
theorem test_suba_storage : view (run 0x2110 0x3000 (start (fr false false false) [(.gr1, 0x8000)] [(0x3000, 1)]))
    (regFrPc .gr1) = some (0x7FFF, fr true false false, 0x0102) := by decide
theorem test_subl_borrows : view (run 0x2712 0 (start (fr false false false) [(.gr1, 0), (.gr2, 1)] []))
    (regFrPc .gr1) = some (0xFFFF, fr true true false, 0x0101) := by decide
theorem test_subl_storage : view (run 0x2358 2 (start (fr false false false) [(.gr5, 5), (.gr8, 0xF000)] [(0xF002, 6)]))
    (regFrPc .gr5) = some (0xFFFF, fr true true false, 0x0102) := by decide
theorem test_adda_source_is_destination : view (run 0x2411 0 (start (fr false false false) [(.gr1, 0x4000)] []))
    (regFrPc .gr1) = some (0x8000, fr true true false, 0x0101) := by decide

/-! Logical operations (2.4) -/

theorem test_and_register : view (run 0x3412 0 (start (fr true true true) [(.gr1, 0xFF00), (.gr2, 0x0FF0)] []))
    (regFrPc .gr1) = some (0x0F00, fr false false false, 0x0101) := by decide
theorem test_and_storage : view (run 0x3010 0x3000 (start (fr true true true) [(.gr1, 0xFFFF)] [(0x3000, 0xFFFF)]))
    (regFrPc .gr1) = some (0xFFFF, fr false true false, 0x0102) := by decide
theorem test_or_register : view (run 0x3512 0 (start (fr true true true) [(.gr1, 0xFF00), (.gr2, 0x0FF0)] []))
    (regFrPc .gr1) = some (0xFFF0, fr false true false, 0x0101) := by decide
theorem test_or_storage : view (run 0x3110 0x3000 (start (fr true true true) [(.gr1, 0xFFFF)] [(0x3000, 0xFFFF)]))
    (regFrPc .gr1) = some (0xFFFF, fr false true false, 0x0102) := by decide
theorem test_xor_register : view (run 0x3612 0 (start (fr true true true) [(.gr1, 0xFF00), (.gr2, 0x0FF0)] []))
    (regFrPc .gr1) = some (0xF0F0, fr false true false, 0x0101) := by decide
theorem test_xor_storage : view (run 0x3210 0x3000 (start (fr true true true) [(.gr1, 0xFFFF)] [(0x3000, 0xFFFF)]))
    (regFrPc .gr1) = some (0, fr false false true, 0x0102) := by decide

/-! Compare (2.5) -/

theorem test_cpa_is_exact : view (run 0x4412 0 (start (fr true false false) [(.gr1, 0x8000), (.gr2, 0x7FFF)] []))
    (regFrPc .gr1) = some (0x8000, fr false true false, 0x0101) := by decide
theorem test_cpa_storage : view (run 0x4010 0x3000 (start (fr true false false) [(.gr1, 0)] [(0x3000, 0xFFFF)]))
    (regFrPc .gr1) = some (0, fr false false false, 0x0102) := by decide
theorem test_cpl_is_unsigned : view (run 0x4512 0 (start (fr true false false) [(.gr1, 0x0001), (.gr2, 0x8000)] []))
    (regFrPc .gr1) = some (1, fr false true false, 0x0101) := by decide
theorem test_cpl_storage : view (run 0x4120 0x3000 (start (fr true false false) [(.gr2, 0xFFFF)] [(0x3000, 0xFFFF)]))
    (regFrPc .gr2) = some (0xFFFF, fr false false true, 0x0102) := by decide

/-! Shifts (2.6) -/

theorem test_sla_by_one : view (run 0x5010 1 (start (fr true true true) [(.gr1, 0x4001)] []))
    (regFrPc .gr1) = some (2, fr true false false, 0x0102) := by decide
theorem test_sla_count_from_register : view (run 0x5013 0 (start (fr true true true) [(.gr1, 0x1234), (.gr3, 4)] []))
    (regFrPc .gr1) = some (0x2340, fr false false false, 0x0102) := by decide
theorem test_sra_by_one : view (run 0x5110 1 (start (fr true true true) [(.gr1, 0xC003)] []))
    (regFrPc .gr1) = some (0xE001, fr true true false, 0x0102) := by decide
theorem test_sra_by_seventeen : shift stepSra 0x8001 17 = (true, 0xFFFF) := by decide
theorem test_sll_by_four : view (run 0x5210 4 (start (fr true true true) [(.gr1, 0x1234)] []))
    (regFrPc .gr1) = some (0x2340, fr true false false, 0x0102) := by decide
theorem test_sll_by_sixteen : view (run 0x5210 0x0010 (start (fr true true true) [(.gr1, 0x8001)] []))
    (regFrPc .gr1) = some (0, fr true false true, 0x0102) := by rfl
theorem test_srl_by_eight : view (run 0x5310 8 (start (fr true true true) [(.gr1, 0xABCD)] []))
    (regFrPc .gr1) = some (0x00AB, fr true false false, 0x0102) := by decide
theorem test_srl_by_zero : view (run 0x5310 0 (start (fr true true true) [(.gr1, 0x8000)] []))
    (regFrPc .gr1) = some (0x8000, fr false true false, 0x0102) := by decide

/-! Branches (2.7): the addresses for FR 000, 001, 010, 011, 100, 101, 110, 111 -/

/-- The addresses that a jump goes to, for each of the eight values of FR. -/
def targets (w0 : Word) : List (Option Word) :=
  [fr false false false, fr false false true, fr false true false, fr false true true, fr true false false,
    fr true false true, fr true true false, fr true true true].map fun f =>
      view (run w0 0x2000 (start f [] [])) (fun t => t.pc)

/-- Taken, and not taken. -/
def T : Option Word := some 0x2000

/-- Not taken: the next instruction. -/
def N : Option Word := some 0x0102

theorem test_jpl_table : targets 0x6500 = [T, N, N, N, T, N, N, N] := by decide
theorem test_jmi_table : targets 0x6100 = [N, N, T, T, N, N, T, T] := by decide
theorem test_jnz_table : targets 0x6200 = [T, N, T, N, T, N, T, N] := by decide
theorem test_jze_table : targets 0x6300 = [N, T, N, T, N, T, N, T] := by decide
theorem test_jov_table : targets 0x6600 = [N, N, N, N, T, T, T, T] := by decide
theorem test_jump_table : targets 0x6400 = [T, T, T, T, T, T, T, T] := by decide
theorem test_jump_wraps : view (run 0x6401 0xFFFF (start (fr true true true) [(.gr1, 2)] []))
    (fun t => (t.pc, t.fr)) = some (1, fr true true true) := by decide

/-! Stack (2.8) -/

theorem test_push_old_sp : view (run 0x7008 0 (start (fr true true true) [(.gr8, 0xF000)] []))
    (fun t => (t.sp, t.read 0xEFFF, t.fr)) = some (0xEFFF, 0xF000, fr true true true) := by decide
theorem test_push_wraps : view (run 0x7000 5 (start (fr true true true) [(.gr8, 0)] []))
    (fun t => (t.sp, t.read 0xFFFF)) = some (0xFFFF, 5) := by decide
theorem test_pop_wraps : view (run 0x7100 0 (start (fr false false false) [(.gr8, 0xFFFF)] [(0xFFFF, 0x8000)]))
    (fun t => (t.reg .gr0, t.sp, t.fr)) = some (0x8000, 0, fr false false false) := by decide
theorem test_pop_gr8 : view (run 0x7180 0 (start (fr false false false) [(.gr8, 0xEFFF)] [(0xEFFF, 0x2000)]))
    (fun t => t.sp) = some 0x2001 := by decide
theorem test_rpush_near_zero : view (run 0x7200 0 (start (fr true false true) [(.gr1, 1), (.gr2, 2), (.gr3, 3), (.gr4, 4), (.gr5, 5), (.gr6, 6), (.gr7, 7), (.gr8, 3)] []))
    
    (fun t => ([t.read 2, t.read 1, t.read 0, t.read 0xFFFF, t.read 0xFFFE, t.read 0xFFFD, t.read 0xFFFC,
      t.read 0xFFFB], t.sp, t.fr)) = some ([1, 2, 3, 4, 5, 6, 7, 0xFFFB], 0xFFFB, fr true false true) := by rfl
theorem test_rpop_unmatched : view (run 0x7300 0 (start (fr false false false) [(.gr8, 0xE000)] [(0xE000, 0xD000), (0xD001, 0x1000), (0xD002, 0x1001), (0xD003, 0x1002), (0xD004, 0x1003), (0xD005, 0x1004), (0xD006, 0x1005), (0xD007, 0x1006)]))
    
    (fun t => [t.reg .gr7, t.reg .gr6, t.reg .gr5, t.reg .gr4, t.reg .gr3, t.reg .gr2, t.reg .gr1, t.sp]) = some [0x1000, 0x1001, 0x1002, 0x1003, 0x1004, 0x1005, 0x1006, 0xD008] := by rfl
theorem test_rpop_reads_a_word_twice : view (run 0x7300 0 (start (fr false false false) [(.gr8, 0xE000)] [(0xE000, 0xDFFF), (0xE001, 0x77), (0xE002, 0x66), (0xE003, 0x55), (0xE004, 0x44), (0xE005, 0x33), (0xE006, 0x22), (0xE007, 0x11)]))
    
    (fun t => [t.reg .gr7, t.reg .gr6, t.reg .gr5, t.reg .gr4, t.reg .gr3, t.reg .gr2, t.reg .gr1, t.sp]) = some [0xDFFF, 0x77, 0x66, 0x55, 0x44, 0x33, 0x22, 0xE007] := by rfl

/-! Call and return (2.9) -/

theorem test_call : view (run 0x8003 0x0100 ((start (fr true true true) [(.gr3, 0x20), (.gr8, 0xF000)] []).setPc 0x1008))
    (fun t => (t.sp, t.read 0xEFFF, t.pc, t.fr)) = some (0xEFFF, 0x100A, 0x0120, fr true true true) := by decide
theorem test_call_wraps : view (run 0x8000 0x3000 ((start (fr true true true) [(.gr8, 0xF000)] []).setPc 0xFFFE))
    (fun t => (t.read 0xEFFF, t.pc)) = some (0, 0x3000) := by decide
theorem test_ret : view (run 0x8100 0 ((start (fr true false true) [(.gr8, 0xEFFF)] [(0xEFFF, 0x100A)]).setPc 0x2000))
    (fun t => (t.pc, t.sp, t.fr, t.ended)) = some (0x100A, 0xF000, fr true false true, false) := by decide
theorem test_ret_ends_the_run : view (run 0x8100 0 State.reset) (fun t => (t.pc, t.sp, t.ended))
    = some (0xFF00, 0xF000, true) := by decide

/-! SVC and NOP (2.10) -/

/-- The registers of 2.10, with storage and the records waiting. -/
def svcStart (mem : List (Word × Word)) (input : List Record) : State :=
  { start (fr true true true) [(.gr1, 0x2000), (.gr2, 0x2100), (.gr3, 3)] mem with input := input }

theorem test_svc_in : view (run 0xF000 1 (svcStart [(0x2002, 0x5555), (0x2100, 0x9999)] [[0x41, 0x42]]))
    (fun t => ([t.read 0x2000, t.read 0x2001, t.read 0x2002, t.read 0x2100], t.input, t.pc))
      = some ([0x41, 0x42, 0x5555, 2], [], 0x0102) := by decide
theorem test_svc_in_at_end_of_file : view (run 0xF000 1 (svcStart [] []))
    (fun t => (t.read 0x2100, t.read 0x2000, t.gr)) = some (0xFFFF, 0, (svcStart [] []).gr) := by decide
theorem test_svc_out : view (run 0xF003 0xFFFF (svcStart [(0x2000, 0x48), (0x2001, 0xFF69), (0x2100, 2)] []))
    (fun t => (t.output, t.pc)) = some ([[0x48, 0x69]], 0x0102) := by decide
theorem test_svc_without_a_service :
    run 0xF000 3 (svcStart [] []) = .refused (.svcArgumentUndefined 3)
    ∧ run 0xF000 2 (svcStart [(0x2100, 0x8000)] []) = .refused (.outLengthNegative 0x8000) := ⟨rfl, rfl⟩
theorem test_nop : view (run 0 0 (start (fr true false true) [] [])) (fun t => (t.pc, t.fr))
    = some (0x0101, fr true false true) := by decide
theorem test_nop_at_the_last_address : view (run 0 0 ((start (fr true false true) [] []).setPc 0xFFFF)) (fun t => t.pc)
    = some 0 := by decide

/-- The two words of an instruction at 65535 are at 65535 and 0 (2.2, D16). -/
theorem test_fetch_wraps :
    view (run 0x1010 0x0300 ((start (fr false false false) [] [(0x0300, 0x00AA)]).setPc 0xFFFF)) (regFrPc .gr1)
      = some (0x00AA, fr false false false, 1) := by decide

theorem test_illegal_word_faults :
    run 0x1300 0 (start (fr false false false) [] []) = .fault (.illegalInstruction 0x1300 0x0100) := by rfl

/-! ### Character codes, constants and the assembler -/

/-- The only worked example of the source (95_test_vectors.md 1.1). -/
theorem test_character_codes : textOf [' ', '4', 'H', '¥'] = some [0x20, 0x34, 0x48, 0x5C] := by decide

/-- A line of 95_test_vectors.md 2.11: `DC 10,-3,#7FFF,1,'A'` and its words. -/
theorem test_dc : parseStmt (ascii "DC") (parseOperands (ascii " 10,-3,#7FFF,1,'A'"))
      = .ok (.dc [.const (.dec 10), .const (.dec (-3)), .const (.hex 0x7FFF), .const (.dec 1), .const (.chars [0x41])])
    ∧ (Stmt.dc [.const (.dec 10), .const (.dec (-3)), .const (.hex 0x7FFF), .const (.dec 1),
        .const (.chars [0x41])]).srcs [] 0
      = [.fixed 0x000A, .fixed 0xFFFD, .fixed 0x7FFF, .fixed 0x0001, .fixed 0x0041] := ⟨rfl, rfl⟩

/-- More of 2.11: two apostrophes stand for one; numbers keep their low 16 bits. -/
theorem test_constants : parseConst (ascii "'IT''S'") = some (.chars [0x49, 0x54, 0x27, 0x53])
    ∧ parseConst (ascii "''") = some (.chars []) ∧ (Const.dec 65536).words = [0] ∧ (Const.dec (-32769)).words = [0x7FFF]
    ∧ parseConst (ascii "#FFF") = none := ⟨rfl, rfl, rfl, rfl, rfl⟩

/-- The program of 48_casl2_assembler.md R236. -/
def sample : List Text :=
  [ascii "SAMPLE  START   BEGIN", ascii "N       DC      3", ascii "BEGIN   LD      GR1,N       ; load N",
    ascii "        ADDA    GR1,=10", ascii "        ST      GR1,RES", ascii "        RET",
    ascii "RES     DS      1", ascii "        END"]

/-- What R236 says it assembles to. -/
def sampleModule : ObjModule :=
  { name := ascii "SAMPLE", start := 1
    words := [.fixed 3, .fixed 0x1010, .here 0, .fixed 0x2010, .here 9, .fixed 0x1110, .here 8, .fixed 0x8100,
      .reserved, .fixed 0x000A] }

theorem test_sample_assembles : assemble sample = .ok [sampleModule] := by rfl

/-- Rejected lines (R235): lower case, a register as label, no operand, an unknown mnemonic, a fifth hexadecimal digit. -/
theorem test_rejected_lines : parseLine (ascii "a NOP") = .error .badLabel
    ∧ parseLine (ascii "GR1 NOP") = .error .badLabel ∧ parseLine (ascii " LD GR1") = .error .badOperand
    ∧ parseLine (ascii " MUL GR1,GR2") = .error .unknownMnemonic
    ∧ parseLine (ascii " LD GR1,#00001") = .error .badOperand := ⟨rfl, rfl, rfl, rfl, rfl⟩

/-! ### A launch (70_reset_and_hazards.md R290, R291), with the parameters of 95_test_vectors.md Part 3 -/

/-- The launch of that program. -/
def sampleLaunch : Launch :=
  { programs := [(0x1000, sampleModule)], stackTop := 0xF000, stackWords := 16, osRet := 0xFF00
    initGr := ⟨1, 2, 3, 4, 5, 6, 7, 8, 9⟩, initFr := fr true true true, initMem := [(0x1008, 0x7777), (0x2000, 1)]
    input := [[0x41]] }

/-- The state it starts in. -/
def sampleStart : State :=
  { gr := ⟨1, 2, 3, 4, 5, 6, 7, 8, 0xEFFF⟩, pc := 0x1001, fr := fr true true true
    mem := [(0x1000, 3), (0x1001, 0x1010), (0x1002, 0x1000), (0x1003, 0x2010), (0x1004, 0x1009), (0x1005, 0x1110),
      (0x1006, 0x1008), (0x1007, 0x8100), (0x1008, 0x7777), (0x1009, 0x000A), (0x2000, 1), (0xEFFF, 0xFF00)]
    input := [[0x41]], output := [], osRet := 0xFF00, ended := false, freeCount := 0 }

theorem test_launch : sampleLaunch.start = .ok sampleStart := by rfl

/-- A stack that reaches into the program is refused (R291 (c)); so is an entry name that no program has (R234). -/
theorem test_launch_refused : { sampleLaunch with stackWords := 0xE000 }.start = .error .constraintsNotMet
    ∧ { sampleLaunch with programs := [(0x1000, { sampleModule with words := [.entry (ascii "SUB")] })] }.start
      = .error (.undefinedEntry (ascii "SUB")) := ⟨rfl, rfl⟩

/-! ### States that meet the hypotheses of the statements -/

/-- A state with values of both signs. -/
def plain : State :=
  start (fr false false true) [(.gr1, 0x8001), (.gr2, 0x7FFF), (.gr3, 5), (.gr8, 0xEFFF)]
    [(0x2000, 5), (0xEFFF, 0x100A)]

/-- One instruction of each constructor. SVC reads a record. -/
def oneOfEach : List Instr :=
  [.nop, .ldMem .gr1 0x2000 none, .st .gr1 0x2000 none, .lad .gr1 0x2000 none, .ldReg .gr1 .gr2,
    .addaMem .gr1 0x2000 none, .subaMem .gr1 0x2000 none, .addlMem .gr1 0x2000 none, .sublMem .gr1 0x2000 none,
    .addaReg .gr1 .gr2, .subaReg .gr1 .gr2, .addlReg .gr1 .gr2, .sublReg .gr1 .gr2]
  ++ [.andMem .gr1 0x2000 none, .orMem .gr1 0x2000 none, .xorMem .gr1 0x2000 none, .andReg .gr1 .gr2,
    .orReg .gr1 .gr2, .xorReg .gr1 .gr2, .cpaMem .gr1 0x2000 none, .cplMem .gr1 0x2000 none, .cpaReg .gr1 .gr2,
    .cplReg .gr1 .gr2, .sla .gr1 1 none, .sra .gr1 1 none, .sll .gr1 1 none, .srl .gr1 1 none]
  ++ [.jmi 0x2000 none, .jnz 0x2000 none, .jze 0x2000 none, .jump 0x2000 none, .jpl 0x2000 none, .jov 0x2000 none,
    .push 0x2000 none, .pop .gr1, .rpush, .rpop, .call 0x2000 none, .ret, .svc 1 none]

/-- For FlagColumnOfTheTables, OnlyConditionalJumpsReadFlags, SignAndZeroNeverSetTogether, OverflowReadFromTheStoredWord,
OverflowFlagRule, OnlyStoringInstructionsChangeStorage, RegistersWrittenAreTheNamedOnes, OnlySvcTouchesTheDevices,
EveryInstructionButSvcCompletes: at one state, every instruction has a next state. -/
theorem test_witness_every_instruction_goes_on : ∀ i ∈ oneOfEach, goesOn (exec i plain) = true := by decide

theorem test_witness_every_constructor_is_there : oneOfEach.length = 40 ∧ oneOfEach.Nodup
    ∧ (oneOfEach.filter isSvc).length = 1 ∧ (oneOfEach.filter conditionalJump).length = 5 := by decide

theorem test_witness_DecodingAnEncodingGivesTheInstruction : WellFormed (.ldMem .gr8 0xFFFF (some .gr1)) := by decide

theorem test_witness_DecodedWordsAreTheEncoding :
    decode [0x1012, 0x1234, 7] = .ok (.ldMem .gr1 0x1234 (some .gr2), [7]) := by rfl

theorem test_witness_StepRunsTheDecodedInstruction : Running State.reset
    ∧ decode [State.reset.read State.reset.pc, State.reset.read (State.reset.pc + 1)] = .ok (.nop, [0]) :=
  ⟨⟨rfl, by decide⟩, rfl⟩

theorem test_witness_FaultExactlyOnAnIllegalWord : Running (placeInstruction State.reset 0x1300 0)
    ∧ decodeHead ((placeInstruction State.reset 0x1300 0).read 0x1000) = .error (.unknownOpcode 0x1300) :=
  ⟨⟨rfl, by decide⟩, rfl⟩

/-- Over the same illegal word an ended run does not fault: it is refused (log 23). -/
theorem test_ended_run_over_an_illegal_word : step { placeInstruction State.reset 0x1300 0 with ended := true }
    = .refused .runEnded := rfl

theorem test_witness_NothingRunsAfterTheEndOrAtOsReturn : { State.reset with ended := true }.ended = true
    ∧ { State.reset with pc := 0xFF00 }.ended = false
    ∧ { State.reset with pc := 0xFF00 }.pc = { State.reset with pc := 0xFF00 }.osRet := ⟨rfl, rfl, rfl⟩

/-- Also for NoStepChangesOsReturn: a step that goes on, and one that ends the run. -/
theorem test_witness_EveryStepKeepsTheInvariant : (Inv State.reset ∧ ∃ t, step State.reset = .next t ∧ t.ended = false)
    ∧ Inv (placeInstruction State.reset 0x8100 0)
    ∧ ∃ t, step (placeInstruction State.reset 0x8100 0) = .next t ∧ t.ended = true :=
  ⟨⟨⟨State.reset_mem_wf, fun h => by cases h⟩, _, rfl, rfl⟩,
    ⟨by decide, fun h => by cases h⟩, _, rfl, rfl⟩

/-- The instruction there is RET and the word on top of the stack is OS_RET. -/
theorem test_witness_TheRunEndsExactlyWhenRetLoadsOsReturn :
    fetchAt (placeInstruction State.reset 0x8100 0) 0x1000 = .ok .ret
    ∧ (placeInstruction State.reset 0x8100 0).read (placeInstruction State.reset 0x8100 0).sp = 0xFF00 :=
  ⟨by simp only [fetchAt, show (placeInstruction State.reset 0x8100 0).read 0x1000 = 0x8100 by decide]; rfl, by decide⟩

theorem test_witness_LaunchEntersTheFirstProgram : ∃ s, sampleLaunch.start = .ok s := ⟨_, test_launch⟩

/-- A placed word, a reserved one, and the addresses just outside the program. -/
theorem test_witness_LaunchPlacesEveryWord : sampleLaunch.start = .ok sampleStart
    ∧ (0x1000, sampleModule) ∈ sampleLaunch.programs ∧ sampleModule.words.length = 10
    ∧ sampleModule.words[0] = .fixed 3 ∧ sampleModule.words[9] = .fixed 0x000A
    ∧ sampleModule.words[2] = .here 0 ∧ sampleModule.words[4] = .here 9 ∧ sampleModule.words[8] = .reserved
    ∧ ∀ a ∈ [0x0FFF, 0x100A], w16 a ≠ sampleStart.sp
      ∧ ((w16 a).toNat < 0x1000 ∨ 0x1000 + 10 ≤ (w16 a).toNat) :=
  ⟨test_launch, by decide, rfl, rfl, rfl, rfl, rfl, rfl, by decide⟩

/-- A program whose only instruction is `CALL SAMPLE`, loaded behind SAMPLE; SAMPLE is the second program. -/
def callerLaunch : Launch :=
  { sampleLaunch with programs := [
      (0x3000, { name := ascii "MAIN", start := 0, words := [.fixed 0x8000, .entry (ascii "SAMPLE"), .fixed 0x8100] }),
      (0x1000, sampleModule)] }

/-- The entry clause of LaunchPlacesEveryWord: the word is SAMPLE's base plus its execution start offset (R234). -/
theorem test_witness_LaunchPlacesEveryWord_entry :
    (∃ s, callerLaunch.start = .ok s ∧ s.pc = 0x3000 ∧ s.read 0x3001 = 0x1001)
    ∧ (0x1000, sampleModule) ∈ callerLaunch.programs ∧ sampleModule.name = ascii "SAMPLE" :=
  ⟨⟨_, rfl, rfl, rfl⟩, by decide, rfl⟩

/-- Also for AddlStoresTheSumAndSetsFlags, SubaStoresTheDifferenceAndSetsFlags, SublStoresTheDifferenceAndSetsFlags. -/
theorem test_witness_AddaStoresTheSumAndSetsFlags : (0x8001 : Word) = plain.reg .gr1
    ∧ (5 : Word) = plain.read (effectiveAddress 0x2000 none plain) ∧ (0x7FFF : Word) = plain.reg .gr2 := by decide

/-- Also for JumpsFollowTheConditionTable: greater, equal and less, each of the four compares. -/
theorem test_witness_ComparesSetFlagsByTheRelation : comparedNumbers plain (.cpaReg .gr2 .gr1) = some (32767, -32767)
    ∧ comparedNumbers plain (.cpaMem .gr3 0x2000 none) = some (5, 5)
    ∧ comparedNumbers plain (.cplReg .gr2 .gr1) = some (32767, 32769)
    ∧ comparedNumbers plain (.cplMem .gr1 0x2000 none) = some (32769, 5) := by decide

theorem test_witness_JumpsFollowTheConditionTable :
    (∀ i ∈ oneOfEach, (comparedNumbers plain i).isSome → goesOn (exec i plain) = true)
    ∧ (oneOfEach.filter fun i => (comparedNumbers plain i).isSome).length = 4
    ∧ (oneOfEach.filter fun i => (resultRegister i).isSome).length = 16 := by decide

/-- 0x8001 shifted by 0, 1, 15, 16 and 17 (95_test_vectors.md 2.6): the register after and the bit sent out last. -/
theorem test_witness_SlaClosedForm : ∀ p ∈ ([(0, 0x8001, false), (1, 0x8002, false), (15, 0x8000, true),
      (16, 0x8000, false), (17, 0x8000, false)] : List (Nat × Word × Bool)),
    p.1 = uint (effectiveAddress (BitVec.ofNat 16 p.1) none plain)
    ∧ p.2 = (if p.1 = 0 then (plain.reg .gr1, false)
        else if p.1 ≤ 15 then (BitVec.ofNat 16 (uint (plain.reg .gr1) / 32768 * 32768
            + uint (plain.reg .gr1) % 32768 * 2 ^ p.1 % 32768), (plain.reg .gr1).getLsbD (15 - p.1))
        else (BitVec.ofNat 16 (uint (plain.reg .gr1) / 32768 * 32768), false)) := by decide

theorem test_witness_SraClosedForm : ∀ p ∈ ([(0, 0x8001, false), (1, 0xC000, true), (15, 0xFFFF, false),
      (16, 0xFFFF, true), (17, 0xFFFF, true)] : List (Nat × Word × Bool)),
    p.1 = uint (effectiveAddress (BitVec.ofNat 16 p.1) none plain)
    ∧ p.2 = (if p.1 = 0 then (plain.reg .gr1, false)
        else if p.1 ≤ 15 then (w16 (sint (plain.reg .gr1) / 2 ^ p.1), (plain.reg .gr1).getLsbD (p.1 - 1))
        else (if (plain.reg .gr1).getLsbD 15 then 0xFFFF else 0, (plain.reg .gr1).getLsbD 15)) := by decide

theorem test_witness_SllClosedForm : ∀ p ∈ ([(0, 0x8001, false), (1, 2, true), (15, 0x8000, false), (16, 0, true),
      (17, 0, false)] : List (Nat × Word × Bool)),
    p.1 = uint (effectiveAddress (BitVec.ofNat 16 p.1) none plain)
    ∧ p.2 = (if p.1 = 0 then (plain.reg .gr1, false)
        else if p.1 ≤ 16 then
          (BitVec.ofNat 16 (uint (plain.reg .gr1) * 2 ^ p.1), (plain.reg .gr1).getLsbD (16 - p.1))
        else (0, false)) := by decide

theorem test_witness_SrlClosedForm : ∀ p ∈ ([(0, 0x8001, false), (1, 0x4000, true), (15, 1, false), (16, 0, true),
      (17, 0, false)] : List (Nat × Word × Bool)),
    p.1 = uint (effectiveAddress (BitVec.ofNat 16 p.1) none plain)
    ∧ p.2 = (if p.1 = 0 then (plain.reg .gr1, false)
        else if p.1 ≤ 16 then
          (BitVec.ofNat 16 (uint (plain.reg .gr1) / 2 ^ p.1), (plain.reg .gr1).getLsbD (p.1 - 1))
        else (0, false)) := by decide

theorem test_witness_OverflowFlagRule : uint (effectiveAddress 1 none plain) = 0 + 1
    ∧ uint (effectiveAddress 0xFFFF none plain) = 65534 + 1 ∧ goesOn (exec (.sla .gr1 0xFFFF none) plain) = true :=
  ⟨rfl, rfl, rfl⟩

theorem test_witness_RpopLoadsTheRegistersFromTheStack : (0x100B : Word) = plain.read plain.sp + 1 := by decide

theorem test_witness_RpushThenRpopRestoresTheRegisters : ∃ t, exec .rpush plain = .next t
    ∧ t.sp = plain.sp - 8 ∧ t.read (plain.sp - 8) = plain.sp - 8 := ⟨_, rfl, by decide, by decide⟩

theorem test_witness_CallThenRetReturnsBehindTheCall : ∃ t, exec (.call 0x2000 (some .gr3)) plain = .next t
    ∧ t.read t.sp = 0x0102 := ⟨_, rfl, by decide⟩

/-- Records of 0, 255, 256 and 257 codes; code n goes to GR1 + n, which is not the length word. -/
theorem test_witness_SvcOneReadsARecord : (∀ n ∈ [0, 255, 256, 257],
      uint (effectiveAddress 1 none (svcStart [] [List.replicate n 0x41, []])) = 1
      ∧ (svcStart [] [List.replicate n 0x41, []]).input = List.replicate n 0x41 :: [[]])
    ∧ ∀ n ∈ [0, 255], (0x2000 : Word) + BitVec.ofNat 16 n ≠ 0x2100 :=
  ⟨fun _ _ => ⟨by rw [effectiveAddress_none]; rfl, rfl⟩, by decide⟩

theorem test_witness_SvcOneAtEndOfFileStoresMinusOne : uint (effectiveAddress 1 none (svcStart [] [])) = 1
    ∧ (svcStart [] []).input = [] := by decide

/-- Length words 0, 1 and 32767. -/
theorem test_witness_SvcTwoWritesARecord : ∀ n ∈ [0, 1, 0x7FFF],
    uint (effectiveAddress 2 none (svcStart [(0x2100, w16 n)] [])) = 2
    ∧ 0 ≤ sint ((svcStart [(0x2100, w16 n)] []).read ((svcStart [(0x2100, w16 n)] []).reg .gr2)) := by decide

/-- Arguments 0, 3 and 65535; length words -32768 and -1. -/
theorem test_witness_SvcIsRefusedWithoutAService : (∀ a ∈ [0, 3, 0xFFFF],
      uint (effectiveAddress (w16 a) none plain) ≠ 1 ∧ uint (effectiveAddress (w16 a) none plain) ≠ 2)
    ∧ ∀ n ∈ [0x8000, 0xFFFF], uint (effectiveAddress 2 none (svcStart [(0x2100, w16 n)] [])) = 2
      ∧ sint ((svcStart [(0x2100, w16 n)] []).read ((svcStart [(0x2100, w16 n)] []).reg .gr2)) < 0 := by decide

/-- SVC 1 that changes INPUT, and SVC 2 that changes OUTPUT and, for OnlyStoringInstructionsChangeStorage, no storage. -/
theorem test_witness_OnlySvcTouchesTheDevices :
    (∃ t, exec (.svc 1 none) (svcStart [] [[0x41]]) = .next t ∧ t.input = [])
    ∧ ∃ t, exec (.svc 2 none) (svcStart [] [[0x41]]) = .next t ∧ t.output = [[]] :=
  ⟨⟨_, rfl, rfl⟩, _, rfl, rfl⟩

/-- An instruction that stops alike. -/
theorem test_witness_OnlyConditionalJumpsReadFlags : conditionalJump (.svc 3 none) = false
    ∧ exec (.svc 3 none) plain = .refused (.svcArgumentUndefined 3) := ⟨rfl, rfl⟩

/-- A reading instruction goes on; ST changes the word at 0x2001, with the storage of `plain` and with empty storage. -/
theorem test_witness_NoInstructionReadsAndWritesStorage :
    (readsStorage (.ldMem .gr1 0x2000 none) = true ∧ goesOn (exec (.ldMem .gr1 0x2000 none) plain) = true)
    ∧ writesStorage (.st .gr1 0x2001 none) = true
    ∧ ∃ t u, exec (.st .gr1 0x2001 none) plain = .next t
      ∧ exec (.st .gr1 0x2001 none) { plain with mem := [] } = .next u ∧ t.read 0x2001 ≠ plain.read 0x2001 :=
  ⟨⟨rfl, rfl⟩, rfl, _, _, rfl, rfl, by decide⟩

/-- ST of 0x0000, which begins NOP, and of 0x1300, which begins no instruction, over the next instruction. -/
theorem test_witness_AStoreIsSeenByTheNextFetch : Running plain ∧ effectiveAddress 0x0102 none plain = plain.pc + 2
    ∧ (∃ t, exec (.st .gr0 0x0102 none) plain = .next t ∧ t.pc ≠ t.osRet
      ∧ decode [plain.reg .gr0, t.read (t.pc + 1)] = .ok (.nop, [0]))
    ∧ ∃ t, exec (.st .gr4 0x0102 none) (plain.setReg .gr4 0x1300) = .next t ∧ t.pc ≠ t.osRet
      ∧ decodeHead ((plain.setReg .gr4 0x1300).reg .gr4) = .error (.unknownOpcode 0x1300) :=
  ⟨⟨rfl, by decide⟩, rfl, ⟨_, rfl, by decide, rfl⟩, _, rfl, by decide, rfl⟩

/-- The lines of the sample between START and END, up to `BEGIN`'s and after it. -/
def sampleLines : List SourceLine × SourceLine × List SourceLine :=
  ([⟨some (ascii "N"), .dc [.const (.dec 3)]⟩],
    ⟨some (ascii "BEGIN"), .machine (.ldMem .gr1 0 none) (some (.label (ascii "N")))⟩,
    [⟨none, .machine (.addaMem .gr1 0 none) (some (.literal (.dec 10)))⟩,
      ⟨none, .machine (.st .gr1 0 none) (some (.label (ascii "RES")))⟩, ⟨none, .machine .ret none⟩,
      ⟨some (ascii "RES"), .ds 1⟩])

/-- Also for AssembledSizeIsTheSumOfTheLines. -/
theorem test_witness_ALabelNamesTheFirstWordOfItsLine :
    assembleProgram (ascii "SAMPLE") (some (ascii "BEGIN")) (sampleLines.1 ++ sampleLines.2.1 :: sampleLines.2.2)
      = .ok sampleModule ∧ sampleLines.2.1.label = some (ascii "BEGIN") := ⟨rfl, rfl⟩

/-- Two-word instructions, each with a literal: two words, none (log 40), one. -/
def literalLine (g : GR) (c : Const) : SourceLine := ⟨none, .machine (.lad g 0 none) (some (.literal c))⟩

/-- The lines of a program with START without operand whose only words are those of such instructions. -/
def literalLines : List SourceLine :=
  [literalLine .gr1 (.chars [0x41, 0x42]), literalLine .gr2 (.chars []), literalLine .gr3 (.dec 7)]

/-- The literal clause of ALabelNamesTheFirstWordOfItsLine, and the clause for START without operand: the pool begins at 6;
the empty literal shares offset 8 with the one after it. -/
theorem test_witness_ALabelNamesTheFirstWordOfItsLine_literals :
    assembleProgram (ascii "P") none literalLines = .ok
      { name := ascii "P", start := 0
        words := [.fixed 0x1210, .here 6, .fixed 0x1220, .here 8, .fixed 0x1230, .here 8,
          .fixed 0x41, .fixed 0x42, .fixed 7] }
    ∧ bodySize literalLines = 6 ∧ (Instr.lad .gr1 0 none).words = 2 := ⟨rfl, rfl, rfl⟩

/-- A text without instruction lines gives no program and no error (log 41). -/
theorem test_no_instruction_line : assemble [] = .ok [] ∧ assemble [ascii "; nothing"] = .ok [] := ⟨rfl, rfl⟩

/-- One label of the program, one of another. -/
theorem test_witness_MacrosExpandToTwelveWords : Src.here 3 = labelSrc [(ascii "BUF", 3)] (ascii "BUF")
    ∧ Src.entry (ascii "LEN") = labelSrc [(ascii "BUF", 3)] (ascii "LEN") := ⟨rfl, rfl⟩

theorem test_witness_HexadecimalConstantsAreFourDigits : parseConst (0x23 :: ascii "FFFE") = some (.hex 0xFFFE)
    ∧ parseConst (0x23 :: ascii "FFFE0") = none ∧ parseConst (0x23 :: ascii "fffe") = none := ⟨rfl, rfl, rfl⟩

theorem test_witness_CharacterConstantsAreQuotedStrings :
    parseConst (ascii "'IT''S'") = some (.chars (ascii "IT'S")) ∧ parseConst (ascii "''") = some (.chars [])
    ∧ parseConst [0x27, 0xA1, 0xDF, 0x27] = some (.chars [0xA1, 0xDF])
    ∧ parseLine (ascii " DC 'IT''S'") = .ok (some ⟨none, .dc [.const (.chars (ascii "IT'S"))]⟩)
    ∧ Const.chars (ascii "IT'S") ∈ (Stmt.dc [.const (.chars (ascii "IT'S"))]).constants := ⟨rfl, rfl, rfl, rfl, by decide⟩

/-- Katakana (0xA1, 0xDF) in a DC and in a literal is refused (93_implementation_defined.md U24); in a comment it is not. -/
theorem test_katakana_refused :
    parseLine (ascii " DC 'A" ++ [0xA1, 0x27]) = .error .katakanaInConstant
    ∧ parseLine (ascii " LAD GR1,='" ++ [0xDF, 0x27]) = .error .katakanaInConstant
    ∧ parseLine (ascii " RET ; " ++ [0xB1]) = .ok (some ⟨none, .machine .ret none⟩) := ⟨rfl, rfl, rfl⟩

/-- Comment lines outside a program are admitted (log 42); a program without words starts at its LOAD_BASE (log 43). -/
theorem test_comment_lines_outside_and_no_word :
    assemble [ascii "; a", ascii "P START", ascii " END", ascii "; b"]
      = .ok [{ name := ascii "P", start := 0, words := [] }] := rfl

end Sys2Proof.Tests
end

-- ==== Proofs of the state statements (10_state.md R20, R31) ====
section

namespace Sys2Proof.Machine

/-! ### The general registers (R20) -/

theorem register_mem_gr0_to_gr8 (g : GR) : g ∈ [GR.gr0, .gr1, .gr2, .gr3, .gr4, .gr5, .gr6, .gr7, .gr8] := by
  cases g <;> decide

/-- LD r1,r2, register by register. -/
theorem exec_ldReg_reg (r1 r2 : GR) (s : State) :
    ∃ t, exec (.ldReg r1 r2) s = .next t ∧ ∀ g, t.reg g = if g = r1 then s.reg r2 else s.reg g :=
  ⟨_, rfl, fun g => reg_finish 1 r1 g _ _ s⟩

/-- Settles O17, from the registers that LD r1,r2 leaves. -/
theorem everyRegisterReadsBackWhatWasWritten : Obligations.EveryRegisterReadsBackWhatWasWritten := by
  refine ⟨register_mem_gr0_to_gr8, by decide, fun r1 r2 s => ?_⟩
  obtain ⟨t, ht, hreg⟩ := exec_ldReg_reg r1 r2 s
  exact ⟨t, ht, by rw [hreg, if_pos rfl], fun g hg => by rw [hreg, if_neg hg]⟩

/-! ### The shared operations do not look at FR: each commutes with replacing it -/

theorem effectiveAddress_setFr (adr : Word) (x : Option GR) (s : State) (f : FR) :
    effectiveAddress adr x (s.setFr f) = effectiveAddress adr x s :=
  effectiveAddress_congr rfl adr x

theorem exec_rpush (s : State) :
    exec .rpush s = .next ((rpushOrder.foldl State.pushReg s).advance 1) := rfl

theorem exec_rpop (s : State) :
    exec .rpop s = .next ((rpopOrder.foldl State.popReg s).advance 1) := rfl

theorem State.advance_setFr (s : State) (f : FR) (n : Nat) :
    (s.setFr f).advance n = (s.advance n).setFr f := rfl

/-- A pushed register does not come from FR, so eight pushes carry a changed FR along. -/
theorem foldl_pushReg_setFr (l : List GR) (s : State) (f : FR) :
    l.foldl State.pushReg (s.setFr f) = (l.foldl State.pushReg s).setFr f :=
  List.foldl_hom (fun s : State => s.setFr f) fun _ _ => rfl

theorem foldl_popReg_setFr (l : List GR) (s : State) (f : FR) :
    l.foldl State.popReg (s.setFr f) = (l.foldl State.popReg s).setFr f :=
  List.foldl_hom (fun s : State => s.setFr f) fun _ _ => rfl

theorem serviceIn_setFr (s : State) (f : FR) : serviceIn (s.setFr f) = (serviceIn s).setFr f := by
  unfold serviceIn
  rw [State.setFr_input]
  cases s.input <;> rfl

theorem serviceOut_setFr (s : State) (f : FR) :
    serviceOut (s.setFr f) = (serviceOut s).map (·.setFr f) := by
  unfold serviceOut
  simp only [State.read_setFr, State.reg_setFr, apply_ite (Except.map _)]
  rfl

theorem supervisorCall_setFr (arg : Word) (s : State) (f : FR) :
    supervisorCall arg (s.setFr f) = (supervisorCall arg s).map (·.setFr f) := by
  unfold supervisorCall
  rw [serviceIn_setFr, serviceOut_setFr]
  split_ifs <;> rfl

/-- The return from a service draws FR anew, whatever FR was. -/
theorem returnFromService_setFr (s : State) (f : FR) :
    returnFromService (s.setFr f) = returnFromService s := rfl

/-! ### An instruction either sets FR afresh or carries it along (R30, R31) -/

/-- The outcome does not depend on FR at all: FR is set afresh, or the instruction stops. -/
def SetsFlagsAfresh (i : Instr) : Prop :=
  ∀ (s : State) (f : FR), exec i (s.setFr f) = exec i s

/-- The instruction goes on, and FR is carried unread from the state before to the state after. -/
def CarriesFlags (i : Instr) : Prop :=
  ∀ (s : State) (f : FR), ∃ t, exec i s = .next t ∧ t.fr = s.fr ∧ exec i (s.setFr f) = .next (t.setFr f)

theorem setsFlagsAfresh_svc (adr : Word) (x : Option GR) : SetsFlagsAfresh (.svc adr x) := by
  intro s f
  simp only [exec, execSvc, effectiveAddress_setFr, supervisorCall_setFr]
  cases supervisorCall (effectiveAddress adr x s) s with
  | ok t => exact congrArg Host.Outcome.next (returnFromService_setFr t f)
  | error r => rfl

theorem carriesFlags_rpush : CarriesFlags .rpush := by
  intro s f
  obtain ⟨-, hfr, -⟩ := State.foldl_pushReg_frame rpushOrder s
  refine ⟨_, exec_rpush s, ?_, ?_⟩
  · rw [State.advance_fr, hfr]
  · rw [exec_rpush, foldl_pushReg_setFr, State.advance_setFr]

theorem carriesFlags_rpop : CarriesFlags .rpop := by
  intro s f
  obtain ⟨-, hfr, -⟩ := State.foldl_popReg_frame rpopOrder s
  refine ⟨_, exec_rpop s, ?_, ?_⟩
  · rw [State.advance_fr, hfr]
  · rw [exec_rpop, foldl_popReg_setFr, State.advance_setFr]

/-- Every instruction but the conditional jumps is of one of the two kinds. Where the operands come from registers and
storage only, replacing FR in the state computes to the same operands. -/
theorem setsFlagsAfresh_or_carriesFlags (i : Instr) (hi : conditionalJump i = false) :
    SetsFlagsAfresh i ∨ CarriesFlags i := by
  cases i with
  | jpl | jmi | jnz | jze | jov => cases hi
  | svc adr x => exact .inl (setsFlagsAfresh_svc adr x)
  | rpush => exact .inr carriesFlags_rpush
  | rpop => exact .inr carriesFlags_rpop
  | nop | st | lad | jump | push | pop | call | ret => exact .inr fun _ _ => ⟨_, rfl, rfl, rfl⟩
  | ldMem | addaMem | subaMem | addlMem | sublMem | andMem | orMem | xorMem | cpaMem | cplMem =>
    exact .inl fun _ _ => rfl
  | ldReg | addaReg | subaReg | addlReg | sublReg | andReg | orReg | xorReg | cpaReg | cplReg =>
    exact .inl fun _ _ => rfl
  | sla | sra | sll | srl => exact .inl fun _ _ => rfl

/-! ### The conditional jumps do look at FR (R171) -/

/-- Of two states that differ only in FR, the one that jumps and the one that does not go to different addresses, unless
the target is the next instruction. -/
theorem jumpIf_pc_ne {c d : Bool} (hcd : c ≠ d) {adr : Word} {x : Option GR} {s : State} (f : FR)
    (h : effectiveAddress adr x s ≠ s.nextPc 2) :
    (jumpIf c adr x s).pc ≠ (jumpIf d adr x (s.setFr f)).pc := by
  have hnext : (s.setFr f).nextPc 2 = s.nextPc 2 := rfl
  rw [jumpIf_eq, jumpIf_eq, effectiveAddress_setFr, hnext]
  match c, d, hcd with
  | true, false, _ => exact h
  | false, true, _ => exact h.symm

/-- A jump on a condition that `f` and the FR of reset decide differently depends on FR. -/
theorem jump_depends_on_flags {i : Instr} (cond : FR → Bool)
    (hi : ∀ s, exec i s = .next (jumpIf (cond s.fr) 0x2000 none s)) (f : FR)
    (hf : cond State.reset.fr ≠ cond f) :
    ∃ (s t u : State) (f : FR), exec i s = .next t ∧ exec i (s.setFr f) = .next u ∧ t.pc ≠ u.pc :=
  ⟨State.reset, _, _, f, hi _, hi _, jumpIf_pc_ne hf f (by decide)⟩

/-- Settles O48: outside the conditional jumps FR is set afresh or carried along unread; each of the five jumps tells the
FR of reset from one other FR. -/
theorem onlyConditionalJumpsReadFlags : Obligations.OnlyConditionalJumpsReadFlags := by
  refine ⟨fun i s f hi => ?_,
    jump_depends_on_flags FR.plus (fun _ => rfl) ⟨false, true, false⟩ (by decide),
    jump_depends_on_flags FR.minus (fun _ => rfl) ⟨false, true, false⟩ (by decide),
    jump_depends_on_flags FR.nonZero (fun _ => rfl) ⟨false, false, true⟩ (by decide),
    jump_depends_on_flags FR.zero (fun _ => rfl) ⟨false, false, true⟩ (by decide),
    jump_depends_on_flags FR.overflow (fun _ => rfl) ⟨true, false, false⟩ (by decide)⟩
  rcases setsFlagsAfresh_or_carriesFlags i hi with hafresh | hcarries
  · rw [hafresh s f]
    exact ⟨fun t ht => ⟨t, ht, rfl, .inr (.inl rfl)⟩, fun r hr => hr⟩
  · obtain ⟨t, ht, hfr, hu⟩ := hcarries s f
    rw [ht, hu]
    refine ⟨fun t' ht' => ?_, fun r hr => nomatch hr⟩
    cases ht'
    exact ⟨t.setFr f, rfl, rfl, .inr (.inr ⟨hfr, rfl⟩)⟩

end Sys2Proof.Machine
end

-- ==== Proofs of the storage statements (20_memory.md R61) ====
section

namespace Sys2Proof.Machine

/-! ### Two runs over different storage (R61)

`s` is the state before an instruction, `t` and `u` are what the same transfers make of `s` and of `s` with other storage. -/

/-- `t` and `u` hold the same registers, PR and FR, and the same word wherever `t` no longer holds the word of `s`. -/
structure AgreeWhereChanged (s t u : State) : Prop where
  gr : u.gr = t.gr
  pc : u.pc = t.pc
  fr : u.fr = t.fr
  read : ∀ a, t.read a ≠ s.read a → u.read a = t.read a

/-- Before any transfer nothing is changed yet. -/
theorem AgreeWhereChanged.start (s : State) (m : Memory) : AgreeWhereChanged s s { s with mem := m } :=
  ⟨rfl, rfl, rfl, fun _ ha => absurd rfl ha⟩

section
variable {s t u : State}

theorem AgreeWhereChanged.reg (h : AgreeWhereChanged s t u) (r : GR) : u.reg r = t.reg r := by
  rw [State.reg_def, State.reg_def, h.gr]

theorem AgreeWhereChanged.sp (h : AgreeWhereChanged s t u) : u.sp = t.sp := h.reg .gr8

theorem AgreeWhereChanged.setReg (h : AgreeWhereChanged s t u) (r : GR) (v : Word) :
    AgreeWhereChanged s (t.setReg r v) (u.setReg r v) :=
  ⟨congrArg (·.set r v) h.gr, h.pc, h.fr, h.read⟩

theorem AgreeWhereChanged.setPc (h : AgreeWhereChanged s t u) (v : Word) :
    AgreeWhereChanged s (t.setPc v) (u.setPc v) :=
  ⟨h.gr, rfl, h.fr, h.read⟩

theorem AgreeWhereChanged.advance (h : AgreeWhereChanged s t u) (n : Nat) :
    AgreeWhereChanged s (t.advance n) (u.advance n) := by
  have hnext : u.nextPc n = t.nextPc n := by rw [State.nextPc_def, State.nextPc_def, h.pc]
  unfold State.advance
  rw [hnext]
  exact h.setPc _

/-- The same word written at the same address: the two agree there afterwards, and elsewhere as before. -/
theorem AgreeWhereChanged.write (h : AgreeWhereChanged s t u) (a v : Word) :
    AgreeWhereChanged s (t.write a v) (u.write a v) := by
  refine ⟨h.gr, h.pc, h.fr, fun b hb => ?_⟩
  by_cases hba : b = a
  · rw [hba, State.read_write_same, State.read_write_same]
  · rw [State.read_write_other _ _ _ _ hba] at hb
    rw [State.read_write_other _ _ _ _ hba, State.read_write_other _ _ _ _ hba, h.read b hb]

theorem AgreeWhereChanged.pushWord (h : AgreeWhereChanged s t u) (v : Word) :
    AgreeWhereChanged s (t.pushWord v) (u.pushWord v) := by
  unfold State.pushWord
  rw [h.sp]
  exact (h.setReg .gr8 _).write _ v

/-- A pushed register is the same in both: it does not come from storage. -/
theorem AgreeWhereChanged.pushReg (h : AgreeWhereChanged s t u) (r : GR) :
    AgreeWhereChanged s (t.pushReg r) (u.pushReg r) := by
  by_cases hr : r = .gr8
  · rw [hr, State.pushReg_gr8, State.pushReg_gr8, h.sp]
    exact h.pushWord _
  · rw [State.pushReg_other _ _ hr, State.pushReg_other _ _ hr, h.reg]
    exact h.pushWord _

theorem AgreeWhereChanged.foldl_pushReg (l : List GR) (h : AgreeWhereChanged s t u) :
    AgreeWhereChanged s (l.foldl State.pushReg t) (l.foldl State.pushReg u) := by
  induction l generalizing t u with
  | nil => exact h
  | cons r l ih => exact ih (h.pushReg r)

end

/-! ### The instructions that read storage and those that write it (R53, R61) -/

theorem exec_mem_of_readsStorage {i : Instr} {s t : State} (hi : readsStorage i = true)
    (ht : exec i s = .next t) : t.mem = s.mem := by
  cases i with
  | ldMem | addaMem | addlMem | subaMem | sublMem | andMem | orMem | xorMem => cases ht; rfl
  | cpaMem | cplMem | pop | ret => cases ht; rfl
  | rpop =>
    rw [exec_rpop] at ht
    cases ht
    obtain ⟨-, -, hmem, -⟩ := State.foldl_popReg_frame rpopOrder s
    rw [State.advance_mem, hmem]
  | _ => cases hi

/-- Addresses and words that a storing instruction transfers come from the registers, PR and its own second word. -/
theorem exec_agreeWhereChanged_of_writesStorage {i : Instr} {s t u : State} {m : Memory}
    (hi : writesStorage i = true) (ht : exec i s = .next t) (hu : exec i { s with mem := m } = .next u) :
    AgreeWhereChanged s t u := by
  have h := AgreeWhereChanged.start s m
  cases i with
  | st r adr x =>
    cases ht; cases hu
    exact (h.write (effectiveAddress adr x s) (s.reg r)).advance 2
  | push adr x =>
    cases ht; cases hu
    exact (h.pushWord (effectiveAddress adr x s)).advance 2
  | rpush =>
    rw [exec_rpush] at ht hu
    cases ht; cases hu
    exact (h.foldl_pushReg rpushOrder).advance 1
  | call adr x =>
    cases ht; cases hu
    exact (h.pushWord (s.nextPc 2)).setPc (effectiveAddress adr x s)
  | _ => cases hi

/-- Settles O51: a reader keeps storage as a whole; a storing instruction makes the same transfers whatever storage held. -/
theorem noInstructionReadsAndWritesStorage : Obligations.NoInstructionReadsAndWritesStorage := by
  refine ⟨fun i s t hi ht a => ?_, fun i s t u m hi ht hu => ?_⟩
  · rw [State.read_def, State.read_def, exec_mem_of_readsStorage hi ht]
  · obtain ⟨hgr, hpc, hfr, hread⟩ := exec_agreeWhereChanged_of_writesStorage hi ht hu
    exact ⟨hgr, hpc, hfr, hread⟩

end Sys2Proof.Machine
end

-- ==== Proofs of the arithmetic statements (41_arithmetic_logic.md R131; 10_state.md R27) ====
section

namespace Sys2Proof.Machine

/-! ### The stored word is the sum or difference of words (R131, D9) -/

theorem storedResult_exactAdda (a b : Word) : storedResult (exactAdda a b) = a + b := by
  simp only [storedResult, exactAdda, BitVec.ofInt_add, BitVec.ofInt_toInt]

theorem storedResult_exactSuba (a b : Word) : storedResult (exactSuba a b) = a - b := by
  simp only [storedResult, exactSuba, Int.sub_eq_add_neg, BitVec.ofInt_add, BitVec.ofInt_neg, BitVec.ofInt_toInt,
    BitVec.sub_eq_add_neg]

theorem storedResult_exactAddl (a b : Word) : storedResult (exactAddl a b) = a + b := by
  simp only [storedResult, exactAddl, BitVec.ofInt_add, BitVec.ofInt_natCast, BitVec.ofNat_toNat, BitVec.setWidth_eq]

/-! ### OF of an exact result, read from the stored word (R27)

The library's overflow predicates on bit vectors are the range conditions of R27, and it has their sign rules. -/

theorem arithmeticOverflow_eq_or (e : Int) :
    arithmeticOverflow e = (decide (e ≥ 2 ^ 15) || decide (e < -2 ^ 15)) := by
  rw [arithmeticOverflow, ← Bool.decide_or, decide_eq_decide]
  omega

theorem arithmeticOverflow_exactAdda (a b : Word) : arithmeticOverflow (exactAdda a b) = a.saddOverflow b :=
  arithmeticOverflow_eq_or _

theorem arithmeticOverflow_exactSuba (a b : Word) : arithmeticOverflow (exactSuba a b) = a.ssubOverflow b :=
  arithmeticOverflow_eq_or _

/-- A sum overflows when two operands of one sign give the other sign. -/
theorem arithmeticOverflow_exactAdda_iff (a b : Word) :
    arithmeticOverflow (exactAdda a b) = true ↔
      a.getLsbD 15 = b.getLsbD 15 ∧ (storedResult (exactAdda a b)).getLsbD 15 ≠ a.getLsbD 15 := by
  rw [arithmeticOverflow_exactAdda, storedResult_exactAdda, BitVec.saddOverflow_eq]
  simp only [BitVec.msb_eq_getLsbD_last, Bool.and_eq_true, beq_iff_eq, Bool.not_eq_true', beq_eq_false_iff_ne]

/-- A difference overflows when the operands' signs differ and the sign of the first is lost. -/
theorem arithmeticOverflow_exactSuba_iff (a b : Word) :
    arithmeticOverflow (exactSuba a b) = true ↔
      a.getLsbD 15 ≠ b.getLsbD 15 ∧ (storedResult (exactSuba a b)).getLsbD 15 ≠ a.getLsbD 15 := by
  rw [arithmeticOverflow_exactSuba, storedResult_exactSuba, BitVec.ssubOverflow_eq]
  simp only [BitVec.msb_eq_getLsbD_last]
  generalize a.getLsbD 15 = signA, b.getLsbD 15 = signB, (a - b).getLsbD 15 = signResult
  decide +revert

/-- An unsigned sum overflows when it wraps, and a sum that wraps is below each operand. -/
theorem logicalOverflow_exactAddl_iff (a b : Word) :
    logicalOverflow (exactAddl a b) = true ↔ uint (storedResult (exactAddl a b)) < uint a := by
  have ha : uint a < 65536 := a.isLt
  have hb : uint b < 65536 := b.isLt
  have hsum : uint (a + b) = (uint a + uint b) % 65536 := BitVec.toNat_add a b
  rw [storedResult_exactAddl, hsum, logicalOverflow, decide_eq_true_iff, exactAddl]
  omega

/-! ### The two forms of an operation (R132 to R139) -/

theorem arithmetic_OF (n : Nat) (overflow : Int → Bool) (r : GR) (e : Int) (s : State) :
    (arithmetic n overflow r e s).fr.OF = overflow e := rfl

theorem arithmetic_reg_same (n : Nat) (overflow : Int → Bool) (r : GR) (e : Int) (s : State) :
    (arithmetic n overflow r e s).reg r = storedResult e := by
  rw [arithmetic, reg_finish, if_pos rfl]

/-- The storage form `mem` and the register form `reg` are one operation with the given exact result and OF. -/
structure ArithmeticForms (mem : GR → Word → Option GR → Instr) (reg : GR → GR → Instr) (overflow : Int → Bool)
    (exactResult : Word → Word → Int) : Prop where
  exec_mem : ∀ r adr x s,
    exec (mem r adr x) s = .next (arithmetic 2 overflow r (exactResult (s.reg r) (memOperand adr x s)) s)
  exec_reg : ∀ r r2 s, exec (reg r r2) s = .next (arithmetic 1 overflow r (exactResult (s.reg r) (s.reg r2)) s)

theorem arithmeticForms_adda : ArithmeticForms .addaMem .addaReg arithmeticOverflow exactAdda :=
  ⟨fun _ _ _ _ => rfl, fun _ _ _ => rfl⟩

theorem arithmeticForms_suba : ArithmeticForms .subaMem .subaReg arithmeticOverflow exactSuba :=
  ⟨fun _ _ _ _ => rfl, fun _ _ _ => rfl⟩

theorem arithmeticForms_addl : ArithmeticForms .addlMem .addlReg logicalOverflow exactAddl :=
  ⟨fun _ _ _ _ => rfl, fun _ _ _ => rfl⟩

/-- After either form, OF and the destination are those of the exact result of the destination and the operand `b`. -/
theorem ArithmeticForms.of_reg {mem : GR → Word → Option GR → Instr} {reg : GR → GR → Instr}
    {overflow : Int → Bool} {exactResult : Word → Word → Int} (h : ArithmeticForms mem reg overflow exactResult)
    {i : Instr} {r : GR} {b : Word} {s t : State} (ht : exec i s = .next t)
    (hi : (∃ adr x, i = mem r adr x ∧ b = s.read (effectiveAddress adr x s)) ∨ ∃ r2, i = reg r r2 ∧ b = s.reg r2) :
    t.fr.OF = overflow (exactResult (s.reg r) b) ∧ t.reg r = storedResult (exactResult (s.reg r) b) := by
  rcases hi with ⟨adr, x, rfl, rfl⟩ | ⟨r2, rfl, rfl⟩
  · rw [h.exec_mem] at ht
    cases ht
    exact ⟨arithmetic_OF .., arithmetic_reg_same ..⟩
  · rw [h.exec_reg] at ht
    cases ht
    exact ⟨arithmetic_OF .., arithmetic_reg_same ..⟩

/-- Settles O25: each operation's two forms leave OF and the stored word of one exact result, and that OF is the sign rule
or the carry. -/
theorem overflowReadFromTheStoredWord : Obligations.OverflowReadFromTheStoredWord := by
  intro i r a b s t ht ha
  subst ha
  refine ⟨fun hi => ?_, fun hi => ?_, fun hi => ?_⟩
  · obtain ⟨hOF, hreg⟩ := arithmeticForms_adda.of_reg ht hi
    rw [hOF, hreg, arithmeticOverflow_exactAdda_iff]
  · obtain ⟨hOF, hreg⟩ := arithmeticForms_suba.of_reg ht hi
    rw [hOF, hreg, arithmeticOverflow_exactSuba_iff]
  · obtain ⟨hOF, hreg⟩ := arithmeticForms_addl.of_reg ht hi
    rw [hOF, hreg, logicalOverflow_exactAddl_iff]

end Sys2Proof.Machine
end

-- ==== Proofs of the comparison statements (42_compare.md R151; 10_state.md R28, R29) ====
section

namespace Sys2Proof.Machine

/-! ### Where FR comes from (R30) -/

/-- A jump leaves FR as it was, whether it is taken or not. -/
@[simp] theorem jumpIf_fr (c : Bool) (adr : Word) (x : Option GR) (s : State) : (jumpIf c adr x s).fr = s.fr := by
  rw [jumpIf_eq, State.setPc_fr]

theorem CarriesFlags.fr_eq {i : Instr} (h : CarriesFlags i) {s t : State} (ht : exec i s = .next t) :
    t.fr = s.fr := by
  obtain ⟨t', ht', hfr, -⟩ := h s s.fr
  obtain rfl : t' = t := Host.Outcome.next.inj (ht'.symm.trans ht)
  exact hfr

/-- FR after an instruction other than SVC: kept, of a stored result (R28, R29), or of a comparison (R151). -/
theorem exec_fr_cases {i : Instr} {s t : State} (hi : isSvc i = false) (ht : exec i s = .next t) :
    t.fr = s.fr ∨ (∃ o v, t.fr = FR.ofResult o v) ∨ ∃ ka kb, t.fr = FR.ofCompare ka kb := by
  cases i with
  | svc => cases hi
  | nop | st | lad | push | pop | call | ret => cases ht; exact .inl rfl
  | rpush => exact .inl (carriesFlags_rpush.fr_eq ht)
  | rpop => exact .inl (carriesFlags_rpop.fr_eq ht)
  | jpl | jmi | jnz | jze | jov | jump => cases ht; exact .inl (jumpIf_fr ..)
  | ldMem | ldReg | sla | sra | sll | srl => cases ht; exact .inr (.inl ⟨_, _, rfl⟩)
  | addaMem | addlMem | subaMem | sublMem | andMem | orMem | xorMem => cases ht; exact .inr (.inl ⟨_, _, rfl⟩)
  | addaReg | addlReg | subaReg | sublReg | andReg | orReg | xorReg => cases ht; exact .inr (.inl ⟨_, _, rfl⟩)
  | cpaMem | cplMem | cpaReg | cplReg => cases ht; exact .inr (.inr ⟨_, _, rfl⟩)

/-! ### A result or a comparison never sets SF and ZF together -/

/-- A result that is 0 has bit 15 clear. -/
theorem FR.ofResult_SF_or_ZF (o : Bool) (v : Word) :
    (FR.ofResult o v).SF = false ∨ (FR.ofResult o v).ZF = false := by
  by_cases hv : v = 0
  · exact .inl (by rw [hv]; rfl)
  · exact .inr (decide_eq_false hv)

/-- Of two equal numbers neither is the smaller. -/
theorem FR.ofCompare_SF_or_ZF (ka kb : Int) :
    (FR.ofCompare ka kb).SF = false ∨ (FR.ofCompare ka kb).ZF = false := by
  by_cases hk : ka = kb
  · exact .inl (decide_eq_false (not_lt_of_ge hk.ge))
  · exact .inr (decide_eq_false hk)

/-- Settles O50, by where FR comes from. -/
theorem signAndZeroNeverSetTogether : Obligations.SignAndZeroNeverSetTogether := by
  intro i s t hi ht
  rcases exec_fr_cases hi ht with hkept | ⟨o, v, hresult⟩ | ⟨ka, kb, hcompare⟩
  · exact .inl hkept
  · exact .inr (hresult ▸ FR.ofResult_SF_or_ZF o v)
  · exact .inr (hcompare ▸ FR.ofCompare_SF_or_ZF ka kb)

end Sys2Proof.Machine
end

-- ==== Proofs of the assembler statements (48_casl2_assembler.md R221) ====
section

namespace Sys2Proof.Machine

/-! ### Hexadecimal digits (R221) -/

/-- The code of a hexadecimal digit as R221 admits it: 0 to 9, then the upper-case A to F. `hexValue` reads it back. -/
def hexDigitCode (n : Nat) : Byte := BitVec.ofNat 8 (if n < 10 then 0x30 + n else 0x41 + (n - 10))

theorem hexDigitCode_toNat {n : Nat} (hn : n < 16) :
    (hexDigitCode n).toNat = if n < 10 then 0x30 + n else 0x41 + (n - 10) := by
  rw [hexDigitCode, BitVec.toNat_ofNat]
  split <;> omega

/-- `hexValue` reads exactly the codes of the sixteen digits: the two ranges of codes do not overlap. -/
theorem hexValue_eq_some_iff (b : Byte) (n : Nat) : hexValue b = some n ↔ n < 16 ∧ b = hexDigitCode n := by
  have hcode : (n < 16 ∧ b = hexDigitCode n) ↔
      n < 16 ∧ b.toNat = if n < 10 then 0x30 + n else 0x41 + (n - 10) :=
    and_congr_right fun hn => by rw [← BitVec.toNat_inj, hexDigitCode_toNat hn]
  rw [hcode]
  simp only [hexValue, isDigit, decide_eq_true_iff]
  by_cases hdigit : 0x30 ≤ b.toNat ∧ b.toNat ≤ 0x39
  · rw [if_pos hdigit, Option.some.injEq]
    split <;> omega
  · rw [if_neg hdigit]
    by_cases hletter : 0x41 ≤ b.toNat ∧ b.toNat ≤ 0x46
    · rw [if_pos hletter, Option.some.injEq]
      split <;> omega
    · rw [if_neg hletter]
      simp only [reduceCtorEq, false_iff]
      split <;> omega

theorem hexValue_hexDigitCode {n : Nat} (hn : n < 16) : hexValue (hexDigitCode n) = some n :=
  (hexValue_eq_some_iff _ n).2 ⟨hn, rfl⟩

/-! ### Four of them (R221) -/

/-- Four digits write a number below 2 ^ 16, so the word holds it unchanged. -/
theorem ofNat_hexDigits_eq_iff {a b c d : Nat} (ha : a < 16) (hb : b < 16) (hc : c < 16) (hd : d < 16) (w : Word) :
    BitVec.ofNat 16 (((a * 16 + b) * 16 + c) * 16 + d) = w ↔ uint w = a * 4096 + b * 256 + c * 16 + d := by
  rw [← BitVec.toNat_inj, BitVec.toNat_ofNat, uint]
  omega

theorem parseHexDigits_eq_some_iff (t : Text) (w : Word) :
    parseHexDigits t = some w ↔ ∃ a b c d : Nat, a < 16 ∧ b < 16 ∧ c < 16 ∧ d < 16
      ∧ t = [a, b, c, d].map hexDigitCode ∧ uint w = a * 4096 + b * 256 + c * 16 + d := by
  constructor
  · intro h
    unfold parseHexDigits at h
    split at h
    next =>
      split at h
      next a b c d hva hvb hvc hvd =>
        obtain ⟨ha, rfl⟩ := (hexValue_eq_some_iff _ a).1 hva
        obtain ⟨hb, rfl⟩ := (hexValue_eq_some_iff _ b).1 hvb
        obtain ⟨hc, rfl⟩ := (hexValue_eq_some_iff _ c).1 hvc
        obtain ⟨hd, rfl⟩ := (hexValue_eq_some_iff _ d).1 hvd
        exact ⟨a, b, c, d, ha, hb, hc, hd, rfl, (ofNat_hexDigits_eq_iff ha hb hc hd w).1 (Option.some.inj h)⟩
      next => cases h
    next => cases h
  · rintro ⟨a, b, c, d, ha, hb, hc, hd, rfl, hw⟩
    simp only [parseHexDigits, List.map_cons, List.map_nil, hexValue_hexDigitCode ha, hexValue_hexDigitCode hb,
      hexValue_hexDigitCode hc, hexValue_hexDigitCode hd, (ofNat_hexDigits_eq_iff ha hb hc hd w).2 hw]

/-! ### A constant that begins with # (R218, R221) -/

/-- The first character decides the kind of a constant: after # nothing but the hexadecimal form is tried. -/
theorem parseConst_hash (t : Text) : parseConst (0x23 :: t) = (parseHexDigits t).map .hex := rfl

/-- Settles O58, from the digits that `hexValue` reads. -/
theorem hexadecimalConstantsAreFourDigits : Obligations.HexadecimalConstantsAreFourDigits := by
  intro t
  rw [parseConst_hash]
  refine ⟨fun w => ?_, fun k hk => ?_⟩
  · rw [Option.map_eq_some_iff]
    simp only [Const.hex.injEq, exists_eq_right]
    exact parseHexDigits_eq_some_iff t w
  · obtain ⟨w, -, rfl⟩ := Option.map_eq_some_iff.1 hk
    exact ⟨w, rfl, rfl⟩

end Sys2Proof.Machine
end

-- ==== Proofs of the encoding statements (30_encoding.md R80 to R90) ====
section

namespace Sys2Proof

/-! ### The legal first words, format by format (R81, R87) -/

/-- The first word `w0` is legal and gives `hd`: one constructor per format, with the fields that format reads. -/
inductive LegalHead (w0 : Word) : Head → Prop where
  | rr {mk : GR → GR → Instr} {r1 r2 : GR} : opRow (opField w0) = some (.rr mk) →
      grOf (rField w0) = some r1 → grOf (xField w0) = some r2 → LegalHead w0 (.whole (mk r1 r2))
  | ra {mk : GR → Word → Option GR → Instr} {r : GR} {x : Option GR} : opRow (opField w0) = some (.ra mk) →
      grOf (rField w0) = some r → indexOf (xField w0) = some x → LegalHead w0 (.needsAdr fun adr => mk r adr x)
  | a {mk : Word → Option GR → Instr} {x : Option GR} : opRow (opField w0) = some (.a mk) →
      rField w0 = 0 → indexOf (xField w0) = some x → LegalHead w0 (.needsAdr fun adr => mk adr x)
  | r {mk : GR → Instr} {r : GR} : opRow (opField w0) = some (.r mk) →
      grOf (rField w0) = some r → xField w0 = 0 → LegalHead w0 (.whole (mk r))
  | n {i : Instr} : opRow (opField w0) = some (.n i) →
      rField w0 = 0 → xField w0 = 0 → LegalHead w0 (.whole i)

theorem legalHead_of_decodeHead {w0 : Word} {hd : Head} (h : decodeHead w0 = .ok hd) : LegalHead w0 hd := by
  unfold decodeHead at h
  split at h
  next => cases h
  next mk hrow =>
    split at h
    next h1 h2 => cases h; exact .rr hrow h1 h2
    next => cases h
  next mk hrow =>
    split at h
    next => cases h
    next => cases h
    next hr hx => cases h; exact .ra hrow hr hx
  next mk hrow =>
    split_ifs at h with hr
    split at h
    next => cases h
    next hx => cases h; exact .a hrow (not_not.1 hr) hx
  next mk hrow =>
    split at h
    next => cases h
    next hr =>
      split_ifs at h with hx
      cases h; exact .r hrow hr (not_not.1 hx)
  next i hrow =>
    split_ifs at h with hz
    obtain ⟨hr, hx⟩ := not_or.1 hz
    cases h; exact .n hrow (not_not.1 hr) (not_not.1 hx)

theorem decodeHead_of_legalHead {w0 : Word} {hd : Head} (h : LegalHead w0 hd) : decodeHead w0 = .ok hd := by
  cases h with
  | rr hrow h1 h2 => simp only [decodeHead, hrow, h1, h2]
  | ra hrow hr hx => simp only [decodeHead, hrow, hr, hx]
  | a hrow hr hx => simp [decodeHead, hrow, hr, hx]
  | r hrow hr hx => simp [decodeHead, hrow, hr, hx]
  | n hrow hr hx => simp [decodeHead, hrow, hr, hx]

theorem decodeHead_ok_iff (w0 : Word) (hd : Head) : decodeHead w0 = .ok hd ↔ LegalHead w0 hd :=
  ⟨legalHead_of_decodeHead, decodeHead_of_legalHead⟩

/-! ### Encoding, then decoding: one lemma per format -/

/-- Register and index fields are at most 8, so each field of a first word reads back. -/
theorem fields_word0 {op rf xf : Nat} (hop : op < 256) (hr : rf < 9) (hx : xf < 9) :
    opField (word0 op rf xf) = op ∧ rField (word0 op rf xf) = rf ∧ xField (word0 op rf xf) = xf :=
  ⟨opField_word0 hop (by omega) (by omega), rField_word0 (by omega) (by omega), xField_word0 (by omega)⟩

section
variable {op : Nat} (hop : op < 256)
include hop

theorem decode_word0_rr {mk : GR → GR → Instr} (hrow : opRow op = some (.rr mk)) (r1 r2 : GR) (rest : List Word) :
    decode (word0 op r1.num r2.num :: rest) = .ok (mk r1 r2, rest) := by
  obtain ⟨ho, hr, hx⟩ := fields_word0 hop r1.num_lt r2.num_lt
  exact decode_whole (decodeHead_of_legalHead
    (.rr (by rw [ho, hrow]) (by rw [hr, grOf_num]) (by rw [hx, grOf_num]))) rest

theorem decode_word0_ra {mk : GR → Word → Option GR → Instr} (hrow : opRow op = some (.ra mk)) (r : GR) (adr : Word)
    {x : Option GR} (hok : indexOk x = true) (rest : List Word) :
    decode (word0 op r.num (indexNum x) :: adr :: rest) = .ok (mk r adr x, rest) := by
  obtain ⟨ho, hr, hx⟩ := fields_word0 hop r.num_lt (indexNum_lt x)
  exact decode_needsAdr (decodeHead_of_legalHead
    (.ra (by rw [ho, hrow]) (by rw [hr, grOf_num]) (by rw [hx, indexOf_indexNum hok]))) adr rest

theorem decode_word0_a {mk : Word → Option GR → Instr} (hrow : opRow op = some (.a mk)) (adr : Word)
    {x : Option GR} (hok : indexOk x = true) (rest : List Word) :
    decode (word0 op 0 (indexNum x) :: adr :: rest) = .ok (mk adr x, rest) := by
  obtain ⟨ho, hr, hx⟩ := fields_word0 (rf := 0) hop (by decide) (indexNum_lt x)
  exact decode_needsAdr (decodeHead_of_legalHead
    (.a (by rw [ho, hrow]) hr (by rw [hx, indexOf_indexNum hok]))) adr rest

theorem decode_word0_r {mk : GR → Instr} (hrow : opRow op = some (.r mk)) (r : GR) (rest : List Word) :
    decode (word0 op r.num 0 :: rest) = .ok (mk r, rest) := by
  obtain ⟨ho, hr, hx⟩ := fields_word0 (xf := 0) hop r.num_lt (by decide)
  exact decode_whole (decodeHead_of_legalHead (.r (by rw [ho, hrow]) (by rw [hr, grOf_num]) hx)) rest

theorem decode_word0_n {i : Instr} (hrow : opRow op = some (.n i)) (rest : List Word) :
    decode (word0 op 0 0 :: rest) = .ok (i, rest) := by
  obtain ⟨ho, hr, hx⟩ := fields_word0 (rf := 0) (xf := 0) hop (by decide) (by decide)
  exact decode_whole (decodeHead_of_legalHead (.n (by rw [ho, hrow]) hr hx)) rest

end

/-- Settles O2: the fields of an encoding read back, and the row of its OP makes the instruction from them. -/
theorem decodingAnEncodingGivesTheInstruction : Obligations.DecodingAnEncodingGivesTheInstruction := by
  intro i rest hwf
  cases i with
  | ldReg r1 r2 | addaReg r1 r2 | subaReg r1 r2 | addlReg r1 r2 | sublReg r1 r2 =>
    exact decode_word0_rr (by decide) rfl r1 r2 rest
  | andReg r1 r2 | orReg r1 r2 | xorReg r1 r2 | cpaReg r1 r2 | cplReg r1 r2 =>
    exact decode_word0_rr (by decide) rfl r1 r2 rest
  | ldMem r adr x | st r adr x | lad r adr x | sla r adr x | sra r adr x | sll r adr x | srl r adr x =>
    exact decode_word0_ra (by decide) rfl r adr hwf rest
  | addaMem r adr x | subaMem r adr x | addlMem r adr x | sublMem r adr x =>
    exact decode_word0_ra (by decide) rfl r adr hwf rest
  | andMem r adr x | orMem r adr x | xorMem r adr x | cpaMem r adr x | cplMem r adr x =>
    exact decode_word0_ra (by decide) rfl r adr hwf rest
  | jmi adr x | jnz adr x | jze adr x | jump adr x | jpl adr x | jov adr x | push adr x | call adr x | svc adr x =>
    exact decode_word0_a (by decide) rfl adr hwf rest
  | pop r => exact decode_word0_r (by decide) rfl r rest
  | nop | rpush | rpop | ret => exact decode_word0_n (by decide) rfl rest

/-! ### Decoding, then encoding: what each row of the map says of the encoder (R84) -/

/-- The instructions of a row are encoded with its OP and are well-formed exactly when their index register is. -/
def Row.EncodedBy (op : Nat) : Row → Prop
  | .rr mk => ∀ r1 r2, encode (mk r1 r2) = [word0 op r1.num r2.num] ∧ wellFormed (mk r1 r2) = true
  | .ra mk => ∀ r adr x, encode (mk r adr x) = [word0 op r.num (indexNum x), adr] ∧ wellFormed (mk r adr x) = indexOk x
  | .a mk => ∀ adr x, encode (mk adr x) = [word0 op 0 (indexNum x), adr] ∧ wellFormed (mk adr x) = indexOk x
  | .r mk => ∀ r, encode (mk r) = [word0 op r.num 0] ∧ wellFormed (mk r) = true
  | .n i => encode i = [word0 op 0 0] ∧ wellFormed i = true

/-- The opcode map and the encoder agree row by row. -/
theorem opRow_encodedBy {op : Nat} {row : Row} (h : opRow op = some row) : row.EncodedBy op := by
  unfold opRow at h
  split at h
  case h_41 => cases h
  all_goals
    cases h
    simp only [Row.EncodedBy, encode, wellFormed, and_self, implies_true]

/-- The first word `w0` is the one spelling of what the head gives. -/
def Head.SpeltBy (w0 : Word) : Head → Prop
  | .whole i => WellFormed i ∧ encode i = [w0]
  | .needsAdr mk => ∀ adr, WellFormed (mk adr) ∧ encode (mk adr) = [w0, adr]

/-- The encoder puts the fields of a legal first word back in their places. -/
theorem LegalHead.speltBy {w0 : Word} {hd : Head} (h : LegalHead w0 hd) : hd.SpeltBy w0 := by
  cases h with
  | @rr mk r1 r2 hrow h1 h2 =>
    obtain ⟨he, hwf⟩ := opRow_encodedBy hrow r1 r2
    exact ⟨hwf, by rw [he, GR.num_of_grOf h1, GR.num_of_grOf h2, word0_fields]⟩
  | @ra mk r x hrow hr hx =>
    intro adr
    obtain ⟨he, hwf⟩ := opRow_encodedBy hrow r adr x
    obtain ⟨hnum, hok⟩ := indexNum_of_indexOf hx
    exact ⟨hwf.trans hok, by rw [he, GR.num_of_grOf hr, hnum, word0_fields]⟩
  | @a mk x hrow hr hx =>
    intro adr
    obtain ⟨he, hwf⟩ := opRow_encodedBy hrow adr x
    obtain ⟨hnum, hok⟩ := indexNum_of_indexOf hx
    exact ⟨hwf.trans hok, by rw [he, hnum, ← hr, word0_fields]⟩
  | @r mk r hrow hr hx =>
    obtain ⟨he, hwf⟩ := opRow_encodedBy hrow r
    exact ⟨hwf, by rw [he, GR.num_of_grOf hr, ← hx, word0_fields]⟩
  | @n i hrow hr hx =>
    obtain ⟨he, hwf⟩ := opRow_encodedBy hrow
    exact ⟨hwf, by rw [he]; nth_rw 1 [← hr]; rw [← hx, word0_fields]⟩

/-- Settles O3: a decoded first word is legal, so it is the one spelling of what it gives. -/
theorem decodedWordsAreTheEncoding : Obligations.DecodedWordsAreTheEncoding := by
  intro ws i rest h
  unfold decode at h
  split at h
  next => cases h
  next w0 ws' =>
    split at h
    next => cases h
    next hw =>
      cases h
      obtain ⟨hwf, he⟩ := (legalHead_of_decodeHead hw).speltBy
      exact ⟨hwf, by rw [he, List.singleton_append]⟩
    next mk hw =>
      split at h
      next => cases h
      next w1 ws'' =>
        cases h
        obtain ⟨hwf, he⟩ := (legalHead_of_decodeHead hw).speltBy w1
        exact ⟨hwf, by rw [he]; rfl⟩

/-! ### The illegal first words (R90) -/

/-- The values that the fields of a legal first word may have, by the format of its row (R90). -/
def Row.AdmitsFields (rf xf : Nat) : Row → Prop
  | .rr _ | .ra _ => rf ≤ 8 ∧ xf ≤ 8
  | .a _ => rf = 0 ∧ xf ≤ 8
  | .r _ => rf ≤ 8 ∧ xf = 0
  | .n _ => rf = 0 ∧ xf = 0

theorem exists_grOf_iff (n : Nat) : (∃ g, grOf n = some g) ↔ n ≤ 8 := by
  constructor
  · rintro ⟨g, hg⟩
    have := g.num_lt
    rw [GR.num_of_grOf hg] at this
    omega
  · intro h
    interval_cases n <;> exact ⟨_, rfl⟩

theorem exists_indexOf_iff (n : Nat) : (∃ x, indexOf n = some x) ↔ n ≤ 8 := by
  cases n with
  | zero => exact iff_of_true ⟨none, rfl⟩ (Nat.zero_le 8)
  | succ n => rw [← exists_grOf_iff]; simp [indexOf]

/-- A first word is legal exactly when its OP has a row whose format admits its fields. -/
theorem exists_legalHead_iff (w0 : Word) :
    (∃ hd, LegalHead w0 hd) ↔ ∃ row, opRow (opField w0) = some row ∧ row.AdmitsFields (rField w0) (xField w0) := by
  constructor
  · rintro ⟨hd, h⟩
    cases h with
    | rr hrow h1 h2 => exact ⟨_, hrow, (exists_grOf_iff _).1 ⟨_, h1⟩, (exists_grOf_iff _).1 ⟨_, h2⟩⟩
    | ra hrow hr hx => exact ⟨_, hrow, (exists_grOf_iff _).1 ⟨_, hr⟩, (exists_indexOf_iff _).1 ⟨_, hx⟩⟩
    | a hrow hr hx => exact ⟨_, hrow, hr, (exists_indexOf_iff _).1 ⟨_, hx⟩⟩
    | r hrow hr hx => exact ⟨_, hrow, (exists_grOf_iff _).1 ⟨_, hr⟩, hx⟩
    | n hrow hr hx => exact ⟨_, hrow, hr, hx⟩
  · rintro ⟨row, hrow, hfields⟩
    cases row with
    | rr =>
      obtain ⟨hr, hx⟩ := hfields
      obtain ⟨r1, h1⟩ := (exists_grOf_iff _).2 hr
      obtain ⟨r2, h2⟩ := (exists_grOf_iff _).2 hx
      exact ⟨_, .rr hrow h1 h2⟩
    | ra =>
      obtain ⟨hr, hx⟩ := hfields
      obtain ⟨r, hr⟩ := (exists_grOf_iff _).2 hr
      obtain ⟨x, hx⟩ := (exists_indexOf_iff _).2 hx
      exact ⟨_, .ra hrow hr hx⟩
    | a =>
      obtain ⟨hr, hx⟩ := hfields
      obtain ⟨x, hx⟩ := (exists_indexOf_iff _).2 hx
      exact ⟨_, .a hrow hr hx⟩
    | r =>
      obtain ⟨hr, hx⟩ := hfields
      obtain ⟨r, hr⟩ := (exists_grOf_iff _).2 hr
      exact ⟨_, .r hrow hr hx⟩
    | n =>
      obtain ⟨hr, hx⟩ := hfields
      exact ⟨_, .n hrow hr hx⟩

/-- The rows of the opcode map, listed by format (R84). -/
theorem exists_opRow_admitsFields_iff (op rf xf : Nat) :
    (∃ row, opRow op = some row ∧ row.AdmitsFields rf xf) ↔
      (op ∈ [0x10, 0x11, 0x12, 0x14, 0x20, 0x21, 0x22, 0x23, 0x24, 0x25, 0x26, 0x27, 0x30, 0x31,
          0x32, 0x34, 0x35, 0x36, 0x40, 0x41, 0x44, 0x45, 0x50, 0x51, 0x52, 0x53] ∧ rf ≤ 8 ∧ xf ≤ 8)
        ∨ (op ∈ [0x61, 0x62, 0x63, 0x64, 0x65, 0x66, 0x70, 0x80, 0xF0] ∧ rf = 0 ∧ xf ≤ 8)
        ∨ (op = 0x71 ∧ rf ≤ 8 ∧ xf = 0)
        ∨ (op ∈ [0x00, 0x72, 0x73, 0x81] ∧ rf = 0 ∧ xf = 0) := by
  unfold opRow
  split
  case h_41 => simp_all
  all_goals simp [Row.AdmitsFields]

theorem exists_decodeHead_error_iff (w0 : Word) : (∃ e, decodeHead w0 = .error e) ↔ ¬ ∃ hd, LegalHead w0 hd := by
  simp only [← decodeHead_ok_iff]
  cases decodeHead w0 <;> simp

/-- Settles O4: the rejected words are those that are not legal, and the map lists the rows of each format. -/
theorem illegalFirstWordsAreExactlyThoseOfTheList : Obligations.IllegalFirstWordsAreExactlyThoseOfTheList := by
  intro w
  rw [exists_decodeHead_error_iff, exists_legalHead_iff, exists_opRow_admitsFields_iff]

/-- Settles O1: the decoder computes each of the words written out. -/
theorem specWordsDecodeToTheirInstructions : Obligations.SpecWordsDecodeToTheirInstructions := by
  unfold Obligations.SpecWordsDecodeToTheirInstructions
  and_intros <;> rfl

end Sys2Proof
end

-- ==== Proofs of the frame and step statements (10_state.md R20 to R36; 70_reset_and_hazards.md R291 to R296) ====
section

namespace Sys2Proof.Machine

/-! ### Completion (60_exceptions.md R274) -/

/-- Every instruction other than SVC has a next state by its meaning alone. -/
theorem exec_completes {i : Instr} (hi : isSvc i = false) (s : State) : ∃ t, exec i s = .next t := by
  cases i with
  | svc => cases hi
  | _ => exact ⟨_, rfl⟩

/-- No instruction faults: SVC, which may not complete, is then refused. -/
theorem exec_ne_fault (i : Instr) (s : State) (f : Fault) : exec i s ≠ .fault f := by
  intro h
  cases hi : isSvc i with
  | false =>
    obtain ⟨t, ht⟩ := exec_completes hi s
    rw [ht] at h
    cases h
  | true =>
    cases i with
    | svc adr x =>
      rcases execSvc_cases adr x s with ⟨t, -, ht⟩ | ⟨r, -, hr⟩
      · rw [ht] at h; cases h
      · rw [hr] at h; cases h
    | _ => cases hi

/-- Settles O12. -/
theorem everyInstructionButSvcCompletes : Obligations.EveryInstructionButSvcCompletes :=
  ⟨fun _ s hi => exec_completes hi s, exec_ne_fault⟩

/-! ### What SVC leaves, whichever service it names (47_other.md R202, R203) -/

/-- An SVC that goes on returns from the service its argument names. -/
theorem exec_svc_next {adr : Word} {x : Option GR} {s t : State} (ht : exec (.svc adr x) s = .next t) :
    ∃ u, supervisorCall (effectiveAddress adr x s) s = .ok u ∧ t = returnFromService u := by
  rcases execSvc_cases adr x s with ⟨u, hu, h⟩ | ⟨r, -, h⟩
  · rw [h] at ht; cases ht; exact ⟨u, hu, rfl⟩
  · rw [h] at ht; cases ht

/-- Registers, OS_RET and the end of the run are as before, PR is two on, FR is drawn, storage stays canonical. -/
theorem exec_svc_frame {adr : Word} {x : Option GR} {s t : State} (ht : exec (.svc adr x) s = .next t) :
    t.gr = s.gr ∧ t.pc = s.pc + 2 ∧ t.osRet = s.osRet ∧ t.ended = s.ended
      ∧ t.fr = FR.ofBits (Config.freeFlags s.freeCount) ∧ t.freeCount = s.freeCount + 1
      ∧ (s.mem.wf → t.mem.wf) := by
  obtain ⟨u, hu, rfl⟩ := exec_svc_next ht
  obtain ⟨hgr, hpc, -, hos, hended, hfree, hwf⟩ := supervisorCall_ok hu
  obtain ⟨rgr, rmem, rpc, rfr, rfree, -, -, ros, rended⟩ := returnFromService_frame u
  refine ⟨rgr.trans hgr, ?_, ros.trans hos, rended.trans hended, ?_, ?_, rmem ▸ hwf⟩
  · rw [rpc, State.nextPc_def, hpc]
    rfl
  · rw [rfr, hfree]
  · rw [rfree, hfree]

/-! ### The host's side (R35, R296) -/

/-- What RET leaves, field by field (46_call_return.md R192). -/
theorem exec_ret_fields {s t : State} (ht : exec .ret s = .next t) :
    t.gr = s.gr.set .gr8 (s.sp + 1) ∧ t.pc = s.read s.sp ∧ t.fr = s.fr ∧ t.mem = s.mem ∧ t.input = s.input
      ∧ t.output = s.output ∧ t.osRet = s.osRet ∧ t.ended = decide (s.read s.sp = s.osRet)
      ∧ t.freeCount = s.freeCount := by
  cases ht
  exact ⟨rfl, rfl, rfl, rfl, rfl, rfl, rfl, rfl, rfl⟩

theorem SameHost.advance {s t : State} (h : SameHost s t) (n : Nat) : SameHost s (t.advance n) := h

/-- SVC talks to the host and RET ends the run; every other instruction leaves the host's side as it was. -/
theorem exec_sameHost {i : Instr} {s t : State} (hi : isSvc i = false) (hret : i ≠ .ret)
    (ht : exec i s = .next t) : SameHost s t := by
  cases i with
  | svc => cases hi
  | ret => exact absurd rfl hret
  | rpush =>
    rw [exec_rpush] at ht
    cases ht
    obtain ⟨-, -, hin, hout, hos, hended, hfree, -⟩ := State.foldl_pushReg_frame rpushOrder s
    exact SameHost.advance ⟨hin, hout, hos, hended, hfree⟩ 1
  | rpop =>
    rw [exec_rpop] at ht
    cases ht
    obtain ⟨-, -, -, hin, hout, hos, hended, hfree⟩ := State.foldl_popReg_frame rpopOrder s
    exact SameHost.advance ⟨hin, hout, hos, hended, hfree⟩ 1
  | jmi | jnz | jze | jump | jpl | jov =>
    cases ht
    rw [jumpIf_eq]
    exact ⟨rfl, rfl, rfl, rfl, rfl⟩
  | _ => cases ht; exact ⟨rfl, rfl, rfl, rfl, rfl⟩

/-- No instruction changes OS_RET. -/
theorem exec_osRet {i : Instr} {s t : State} (ht : exec i s = .next t) : t.osRet = s.osRet := by
  by_cases hret : i = .ret
  · subst hret
    obtain ⟨-, -, -, -, -, -, hos, -, -⟩ := exec_ret_fields ht
    exact hos
  · cases hi : isSvc i with
    | false =>
      obtain ⟨-, -, hos, -, -⟩ := exec_sameHost hi hret ht
      exact hos
    | true =>
      cases i with
      | svc =>
        obtain ⟨-, -, hos, -⟩ := exec_svc_frame ht
        exact hos
      | _ => cases hi

/-- Only RET decides anew whether the run has ended. -/
theorem exec_ended {i : Instr} {s t : State} (hret : i ≠ .ret) (ht : exec i s = .next t) : t.ended = s.ended := by
  cases hi : isSvc i with
  | false =>
    obtain ⟨-, -, -, hended, -⟩ := exec_sameHost hi hret ht
    exact hended
  | true =>
    cases i with
    | svc =>
      obtain ⟨-, -, -, hended, -⟩ := exec_svc_frame ht
      exact hended
    | _ => cases hi

/-- Service 1 alone touches INPUT, service 2 alone OUTPUT. -/
theorem supervisorCall_devices {arg : Word} {s u : State} (hu : supervisorCall arg s = .ok u) :
    (uint arg ≠ 1 → u.input = s.input ∧ u.mem = s.mem) ∧ (uint arg ≠ 2 → u.output = s.output) := by
  rcases supervisorCall_cases arg s with ⟨h1, h⟩ | ⟨h2, h⟩ | ⟨-, -, h⟩
  · rw [h] at hu
    cases hu
    obtain ⟨-, -, -, hout, -⟩ := serviceIn_frame s
    exact ⟨fun hne => absurd h1 hne, fun _ => hout⟩
  · refine ⟨fun _ => ?_, fun hne => absurd h2 hne⟩
    rcases serviceOut_cases s with ⟨-, h'⟩ | ⟨-, h'⟩
    · rw [h, h'] at hu; cases hu
    · rw [h, h'] at hu; cases hu; exact ⟨rfl, rfl⟩
  · rw [h] at hu; cases hu

/-- Settles O46: RET keeps the devices too, and an SVC that changes one names its service. -/
theorem onlySvcTouchesTheDevices : Obligations.OnlySvcTouchesTheDevices := by
  refine ⟨fun i s t hi ht => ?_, fun adr x s t ht => ?_⟩
  · by_cases hret : i = .ret
    · subst hret
      obtain ⟨-, -, -, -, hin, hout, -, -, hfree⟩ := exec_ret_fields ht
      exact ⟨hin, hout, hfree⟩
    · obtain ⟨hin, hout, -, -, hfree⟩ := exec_sameHost hi hret ht
      exact ⟨hin, hout, hfree⟩
  · obtain ⟨u, hu, rfl⟩ := exec_svc_next ht
    obtain ⟨hin, hout⟩ := supervisorCall_devices hu
    exact ⟨fun hne => by_contra fun h1 => hne (hin h1).1, fun hne => by_contra fun h2 => hne (hout h2)⟩

/-! ### Storage (R53) -/

/-- Instructions that do not store leave storage as it is held, not only as it reads. -/
theorem exec_mem {i : Instr} {s t : State} (hw : writesStorage i = false) (hi : isSvc i = false)
    (ht : exec i s = .next t) : t.mem = s.mem := by
  cases i with
  | svc => cases hi
  | st | push | rpush | call => cases hw
  | rpop => exact exec_mem_of_readsStorage rfl ht
  | jmi | jnz | jze | jump | jpl | jov => cases ht; rw [jumpIf_eq]; rfl
  | _ => cases ht; rfl

theorem sameStorage_of_mem_eq {s t : State} (h : t.mem = s.mem) : SameStorage s t := by
  intro a
  rw [State.read_def, State.read_def, h]

/-- Settles O52. -/
theorem onlyStoringInstructionsChangeStorage : Obligations.OnlyStoringInstructionsChangeStorage := by
  refine ⟨fun i s t hw hi ht => sameStorage_of_mem_eq (exec_mem hw hi ht), fun adr x s t ht harg => ?_⟩
  obtain ⟨u, hu, rfl⟩ := exec_svc_next ht
  obtain ⟨hkept, -⟩ := supervisorCall_devices hu
  exact sameStorage_of_mem_eq (hkept harg).2

/-- Every instruction keeps the canonical form: storing ones by the law of `write`, SVC by that of the services. -/
theorem exec_mem_wf {i : Instr} {s t : State} (hm : s.mem.wf) (ht : exec i s = .next t) : t.mem.wf := by
  cases hw : writesStorage i with
  | true =>
    cases i with
    | st | push | call => cases ht; exact Memory.wf_write hm _ _
    | rpush =>
      rw [exec_rpush] at ht
      cases ht
      obtain ⟨-, -, -, -, -, -, -, hwf⟩ := State.foldl_pushReg_frame rpushOrder s
      exact hwf hm
    | _ => cases hw
  | false =>
    cases hi : isSvc i with
    | false => rw [exec_mem hw hi ht]; exact hm
    | true =>
      cases i with
      | svc =>
        obtain ⟨-, -, -, -, -, -, hwf⟩ := exec_svc_frame ht
        exact hwf hm
      | _ => cases hi

/-! ### Registers (R23) -/

theorem sameRegsBut_finish {n : Nat} {r : GR} {v : Word} {f : FR} {s : State} :
    SameRegsBut [r] s (finish n r v f s) := by
  intro g hg
  rw [reg_finish, if_neg (List.mem_singleton.not.1 hg)]

theorem reg_foldl_pushReg (l : List GR) (s : State) {g : GR} (hg : g ≠ .gr8) :
    (l.foldl State.pushReg s).reg g = s.reg g := by
  induction l generalizing s with
  | nil => rfl
  | cons r l ih => rw [List.foldl_cons, ih, State.reg_pushReg, if_neg hg]

theorem reg_popReg_notMem (s : State) {r g : GR} (hr : g ≠ r) (hg : g ≠ .gr8) : (s.popReg r).reg g = s.reg g := by
  rw [State.reg_def, State.popReg_gr, GprFile.get_set_other _ _ _ _ hg, GprFile.get_set_other _ _ _ _ hr]
  rfl

theorem reg_foldl_popReg_notMem (l : List GR) (s : State) {g : GR} (hl : g ∉ l) (hg : g ≠ .gr8) :
    (l.foldl State.popReg s).reg g = s.reg g := by
  induction l generalizing s with
  | nil => rfl
  | cons r l ih =>
    obtain ⟨hr, hl⟩ := not_or.1 (List.mem_cons.not.1 hl)
    rw [List.foldl_cons, ih _ hl, reg_popReg_notMem s hr hg]

/-- Settles O53, by the kinds of transfer: a finished result, a stack transfer, none. -/
theorem registersWrittenAreTheNamedOnes : Obligations.RegistersWrittenAreTheNamedOnes := by
  intro i s t ht
  cases i with
  | ldMem | ldReg | sla | sra | sll | srl => cases ht; exact sameRegsBut_finish
  | addaMem | addlMem | subaMem | sublMem | addaReg | addlReg | subaReg | sublReg => cases ht; exact sameRegsBut_finish
  | andMem | orMem | xorMem | andReg | orReg | xorReg => cases ht; exact sameRegsBut_finish
  | lad =>
    cases ht
    intro g hg
    exact State.reg_setReg_other _ _ _ _ (List.mem_singleton.not.1 hg)
  | push | call =>
    cases ht
    intro g hg
    exact GprFile.get_set_other _ _ _ _ (List.mem_singleton.not.1 hg)
  | ret =>
    obtain ⟨hgr, -⟩ := exec_ret_fields ht
    intro g hg
    rw [State.reg_def, hgr]
    exact GprFile.get_set_other _ _ _ _ (List.mem_singleton.not.1 hg)
  | pop r =>
    cases ht
    intro g hg
    obtain ⟨hr, hg⟩ := not_or.1 (List.mem_cons.not.1 hg)
    exact reg_popReg_notMem s hr (List.mem_singleton.not.1 hg)
  | rpush =>
    rw [exec_rpush] at ht
    cases ht
    intro g hg
    exact reg_foldl_pushReg rpushOrder s (List.mem_singleton.not.1 hg)
  | rpop =>
    rw [exec_rpop] at ht
    cases ht
    intro g hg
    exact reg_foldl_popReg_notMem rpopOrder s (fun h => hg (by revert h; cases g <;> decide))
      (fun h => hg (h ▸ by decide))
  | jmi | jnz | jze | jump | jpl | jov => cases ht; rw [jumpIf_eq]; exact fun _ _ => rfl
  | svc =>
    obtain ⟨hgr, -⟩ := exec_svc_frame ht
    intro g _
    rw [State.reg_def, State.reg_def, hgr]
  | nop | st | cpaMem | cplMem | cpaReg | cplReg => cases ht; exact fun _ _ => rfl

/-! ### One step -/

/-- Settles O10. -/
theorem noStepChangesOsReturn : Obligations.NoStepChangesOsReturn := by
  intro s t h
  obtain ⟨-, -, i, -, ht⟩ := step_next h
  exact exec_osRet ht

/-- Settles O11: the run goes on before the step, so only a RET can end it, and it does when it pops OS_RET. -/
theorem theRunEndsExactlyWhenRetLoadsOsReturn : Obligations.TheRunEndsExactlyWhenRetLoadsOsReturn := by
  intro s t h
  obtain ⟨hrun, -, i, hi, ht⟩ := step_next h
  rw [hi]
  by_cases hret : i = .ret
  · subst hret
    obtain ⟨hgr, hpc, -, -, -, -, -, hended, -⟩ := exec_ret_fields ht
    rw [hended, decide_eq_true_iff, hpc, State.sp_def t, hgr, GprFile.get_set_same]
    exact ⟨(and_iff_right rfl).symm, fun he => ⟨he, rfl⟩⟩
  · have hgoesOn : t.ended = false := (exec_ended hret ht).trans hrun
    simp [hgoesOn, hret]

/-- Settles O8: the canonical form instruction by instruction; an ended run stands at the OS_RET that its RET popped. -/
theorem everyStepKeepsTheInvariant : Obligations.EveryStepKeepsTheInvariant := by
  intro s t hs h
  obtain ⟨hwf, -⟩ := hs
  obtain ⟨-, -, i, -, ht⟩ := step_next h
  obtain ⟨-, hend⟩ := theRunEndsExactlyWhenRetLoadsOsReturn s t h
  refine ⟨exec_mem_wf hwf ht, fun hended => ?_⟩
  rw [(hend hended).1, noStepChangesOsReturn s t h]

/-- Settles O6: of all that a step can answer, only the decoder's rejection is a fault. -/
theorem faultExactlyOnAnIllegalWord : Obligations.FaultExactlyOnAnIllegalWord := by
  intro s f
  rcases step_cases s with ⟨hended, h⟩ | ⟨-, hpc, h⟩ | ⟨hrun, hpc, herr, h⟩ | ⟨-, -, i, hi, h⟩
  · rw [h]
    exact iff_of_false (nofun) fun ⟨⟨hrun, _⟩, _⟩ => by simp [hended] at hrun
  · rw [h]
    exact iff_of_false (nofun) fun ⟨⟨_, hne⟩, _⟩ => hne hpc
  · rw [h, Host.Outcome.fault.injEq]
    exact ⟨fun hf => ⟨⟨hrun, hpc⟩, herr, hf.symm⟩, fun ⟨_, _, hf⟩ => hf.symm⟩
  · rw [h]
    refine iff_of_false (exec_ne_fault i s f) fun ⟨_, ⟨e, he⟩, _⟩ => ?_
    rw [(fetchAt_error_iff s s.pc e).2 he] at hi
    cases hi

/-- A running state executes the instruction fetched at PR. -/
theorem step_of_fetchAt {s : State} {i : Instr} (hrun : Running s) (hi : fetchAt s s.pc = .ok i) : step s = exec i s := by
  obtain ⟨hended, hpc⟩ := hrun
  simp [step, hended, hpc, hi]

/-- Settles O5. -/
theorem stepRunsTheDecodedInstruction : Obligations.StepRunsTheDecodedInstruction :=
  fun s i rest hrun hdec => step_of_fetchAt hrun ((fetchAt_ok_iff s s.pc i).2 ⟨rest, hdec⟩)

/-- Settles O7, by the two guards in front of the fetch. -/
theorem nothingRunsAfterTheEndOrAtOsReturn : Obligations.NothingRunsAfterTheEndOrAtOsReturn := by
  refine ⟨fun s hended => ?_, fun s hrun hpc => ?_⟩
  · simp [step, hended]
  · simp [step, hrun, hpc]

/-! ### A store over the next instruction (20_memory.md R62) -/

theorem exec_st (r : GR) (adr : Word) (x : Option GR) (s : State) :
    exec (.st r adr x) s = .next ((s.write (effectiveAddress adr x s) (s.reg r)).advance 2) := rfl

/-- Settles O54: the next fetch reads the stored word at PR, and `step` decodes what it fetches. -/
theorem aStoreIsSeenByTheNextFetch : Obligations.AStoreIsSeenByTheNextFetch := by
  intro r adr x s t hs ht haddr hpc
  obtain ⟨hrun, -⟩ := hs
  have hrunning : Running t := ⟨(exec_ended (by nofun) ht).trans hrun, hpc⟩
  have hfetched : t.read t.pc = s.reg r := by
    rw [exec_st, haddr] at ht
    cases ht
    exact State.read_write_same s (s.pc + 2) (s.reg r)
  rw [← hfetched]
  exact ⟨fun i rest hdec => stepRunsTheDecodedInstruction t i rest hrunning hdec,
    fun e he => (faultExactlyOnAnIllegalWord t _).2 ⟨hrunning, ⟨e, he⟩, rfl⟩⟩

/-! ### The state after reset (R36) -/

/-- Settles O9. -/
theorem resetMeetsTheInvariant : Obligations.ResetMeetsTheInvariant :=
  ⟨State.reset_mem_wf, nofun⟩

/-- The one listed word of the storage after reset is that on top of the stack. -/
theorem read_reset (a : Word) : State.reset.read a = if a = 0xEFFF then Config.osRet else 0 := by
  have hmem : State.reset.mem = Memory.write [] 0xEFFF Config.osRet := by decide
  rw [State.read_def, hmem, Memory.read_write]
  rfl

/-- Settles O13. -/
theorem resetIsAProgramStartState : Obligations.ResetIsAProgramStartState := by
  refine ⟨rfl, read_reset _, rfl, rfl, rfl, rfl, rfl, fun g hg => ?_, rfl, rfl, fun a ha => ?_⟩
  · cases g with
    | gr8 => exact absurd rfl hg
    | _ => rfl
  · rw [read_reset, if_neg ha]

end Sys2Proof.Machine
end

-- ==== Proofs of the statements of each instruction (40_load_store.md to 44_branch.md) ====
section

namespace Sys2Proof.Machine

/-! ### Results that go to a register -/

/-- What `finish` leaves when FR is that of the result. -/
theorem writesRegister_finish (n : Nat) (r : GR) (v : Word) (o : Bool) (s : State) :
    WritesRegister n r v (flagsOf o v) s (finish n r v (FR.ofResult o v) s) :=
  ⟨by rw [reg_finish, if_pos rfl], sameRegsBut_finish, rfl, rfl, fun _ => rfl, rfl, rfl, rfl, rfl, rfl⟩

/-- FR after a result, read from the register that holds it (R28, R29). -/
theorem finish_fr_eq_flagsOf (n : Nat) (r : GR) (v : Word) (o : Bool) (s : State) :
    (finish n r v (FR.ofResult o v) s).fr = flagsOf o ((finish n r v (FR.ofResult o v) s).reg r) := by
  rw [reg_finish, if_pos rfl]
  rfl

/-- Settles O16. -/
theorem effectiveAddressIsAdrPlusIndex : Obligations.EffectiveAddressIsAdrPlusIndex :=
  fun adr g s => ⟨rfl, BitVec.toNat_add adr (s.reg g)⟩

/-! ### LD, ST, LAD -/

/-- Settles O18. -/
theorem ldLoadsAndSetsFlags : Obligations.LdLoadsAndSetsFlags :=
  ⟨fun _ _ _ s => ⟨_, rfl, writesRegister_finish 2 _ _ false s⟩,
    fun _ _ s => ⟨_, rfl, writesRegister_finish 1 _ _ false s⟩⟩

/-- Settles O19. -/
theorem stStoresOneWord : Obligations.StStoresOneWord := by
  intro r adr x s
  refine ⟨_, exec_st r adr x s, ?_, fun b hb => ?_, fun _ _ => rfl, rfl, rfl, rfl, rfl, rfl, rfl, rfl⟩
  · rw [State.read_advance, State.read_write_same]
  · rw [State.read_advance, State.read_write_other _ _ _ _ hb]

/-- Settles O20. -/
theorem ladLoadsTheAddressItself : Obligations.LadLoadsTheAddressItself := by
  intro r adr x s
  refine ⟨_, rfl, ?_, fun g hg => ?_, rfl, rfl, fun _ => rfl, rfl, rfl, rfl, rfl, rfl⟩
  · rw [State.reg_advance, State.reg_setReg_same]
  · rw [State.reg_advance, State.reg_setReg_other _ _ _ _ (List.mem_singleton.not.1 hg)]

/-! ### ADDA, ADDL, SUBA, SUBL (R131) -/

theorem storedResult_exactSubl (a b : Word) : storedResult (exactSubl a b) = a - b := by
  simp only [storedResult, exactSubl, Int.sub_eq_add_neg, BitVec.ofInt_add, BitVec.ofInt_neg, BitVec.ofInt_natCast,
    BitVec.ofNat_toNat, BitVec.setWidth_eq, BitVec.sub_eq_add_neg]

/-- An unsigned sum is never below 0. -/
theorem logicalOverflow_exactAddl (a b : Word) :
    logicalOverflow (exactAddl a b) = decide (uint a + uint b > 65535) := by
  rw [logicalOverflow, exactAddl, decide_eq_decide]
  omega

/-- An unsigned difference is never above 65535, and below 0 when there is a borrow. -/
theorem logicalOverflow_exactSubl (a b : Word) : logicalOverflow (exactSubl a b) = decide (uint a < uint b) := by
  have ha : uint a < 65536 := a.isLt
  rw [logicalOverflow, exactSubl, decide_eq_decide]
  omega

theorem arithmeticForms_subl : ArithmeticForms .sublMem .sublReg logicalOverflow exactSubl :=
  ⟨fun _ _ _ _ => rfl, fun _ _ _ => rfl⟩

/-- Both forms of an operation, when the stored word is `result` and OF is `overflows` of the operands. -/
theorem ArithmeticForms.writesRegister {mem : GR → Word → Option GR → Instr} {reg : GR → GR → Instr}
    {overflow : Int → Bool} {exactResult : Word → Word → Int} (h : ArithmeticForms mem reg overflow exactResult)
    {result : Word → Word → Word} (hresult : ∀ a b, storedResult (exactResult a b) = result a b)
    {overflows : Word → Word → Bool} (hoverflow : ∀ a b, overflow (exactResult a b) = overflows a b) :
    (∀ (r : GR) (adr : Word) (x : Option GR) (s : State) (a b : Word),
      a = s.reg r → b = s.read (effectiveAddress adr x s) →
      ∃ t, exec (mem r adr x) s = .next t
        ∧ WritesRegister 2 r (result a b) (flagsOf (overflows a b) (result a b)) s t)
    ∧ ∀ (r1 r2 : GR) (s : State) (a b : Word), a = s.reg r1 → b = s.reg r2 →
      ∃ t, exec (reg r1 r2) s = .next t
        ∧ WritesRegister 1 r1 (result a b) (flagsOf (overflows a b) (result a b)) s t := by
  refine ⟨fun r adr x s a b ha hb => ?_, fun r1 r2 s a b ha hb => ?_⟩
  · refine ⟨_, h.exec_mem r adr x s, ?_⟩
    subst ha hb
    rw [← hresult, ← hoverflow]
    exact writesRegister_finish 2 r _ _ s
  · refine ⟨_, h.exec_reg r1 r2 s, ?_⟩
    subst ha hb
    rw [← hresult, ← hoverflow]
    exact writesRegister_finish 1 r1 _ _ s

/-- Settles O21. -/
theorem addaStoresTheSumAndSetsFlags : Obligations.AddaStoresTheSumAndSetsFlags := by
  obtain ⟨hmem, hreg⟩ := arithmeticForms_adda.writesRegister storedResult_exactAdda fun _ _ => rfl
  exact ⟨hmem, hreg, fun a b => (storedResult_exactAdda a b).symm⟩

/-- Settles O22. -/
theorem addlStoresTheSumAndSetsFlags : Obligations.AddlStoresTheSumAndSetsFlags := by
  obtain ⟨hmem, hreg⟩ := arithmeticForms_addl.writesRegister storedResult_exactAddl logicalOverflow_exactAddl
  exact ⟨hmem, hreg, fun a b => (storedResult_exactAddl a b).symm⟩

/-- Settles O23. -/
theorem subaStoresTheDifferenceAndSetsFlags : Obligations.SubaStoresTheDifferenceAndSetsFlags := by
  obtain ⟨hmem, hreg⟩ := arithmeticForms_suba.writesRegister storedResult_exactSuba fun _ _ => rfl
  exact ⟨hmem, hreg, fun a b => (storedResult_exactSuba a b).symm⟩

/-- Settles O24. -/
theorem sublStoresTheDifferenceAndSetsFlags : Obligations.SublStoresTheDifferenceAndSetsFlags := by
  obtain ⟨hmem, hreg⟩ := arithmeticForms_subl.writesRegister storedResult_exactSubl logicalOverflow_exactSubl
  exact ⟨hmem, hreg, fun a b => (storedResult_exactSubl a b).symm⟩

/-! ### AND, OR, XOR -/

/-- Settles O26: the word operations of the library act bit by bit. -/
theorem logicalOperationsAreBitwise : Obligations.LogicalOperationsAreBitwise :=
  ⟨fun r _ _ s => ⟨_, _, rfl, writesRegister_finish 2 r _ false s, fun _ _ => BitVec.getLsbD_and⟩,
    fun r _ s => ⟨_, _, rfl, writesRegister_finish 1 r _ false s, fun _ _ => BitVec.getLsbD_and⟩,
    fun r _ _ s => ⟨_, _, rfl, writesRegister_finish 2 r _ false s, fun _ _ => BitVec.getLsbD_or⟩,
    fun r _ s => ⟨_, _, rfl, writesRegister_finish 1 r _ false s, fun _ _ => BitVec.getLsbD_or⟩,
    fun r _ _ s => ⟨_, _, rfl, writesRegister_finish 2 r _ false s, fun _ _ => BitVec.getLsbD_xor⟩,
    fun r _ s => ⟨_, _, rfl, writesRegister_finish 1 r _ false s, fun _ _ => BitVec.getLsbD_xor⟩⟩

/-! ### CPA, CPL (R151) -/

/-- An instruction with compared numbers is a compare of them. -/
theorem exec_of_comparedNumbers {i : Instr} {s : State} {ka kb : Int} (h : comparedNumbers s i = some (ka, kb)) :
    exec i s = .next (compare i.words ka kb s) := by
  cases i with
  | cpaMem | cpaReg | cplMem | cplReg => cases h; rfl
  | _ => cases h

theorem writesFlags_compare (n : Nat) (ka kb : Int) (s : State) :
    WritesFlags n (FR.ofCompare ka kb) s (compare n ka kb s) :=
  ⟨rfl, rfl, fun _ _ => rfl, fun _ => rfl, rfl, rfl, rfl, rfl, rfl⟩

/-- The table 表4 of R151. -/
theorem ofCompare_eq_table (ka kb : Int) : FR.ofCompare ka kb =
    if ka > kb then ⟨false, false, false⟩ else if ka = kb then ⟨false, false, true⟩ else ⟨false, true, false⟩ := by
  unfold FR.ofCompare
  rcases lt_trichotomy ka kb with h | h | h
  · simp [h, h.ne, h.not_gt]
  · simp [h]
  · simp [h, h.ne', h.not_gt]

/-- Settles O27. -/
theorem comparesSetFlagsByTheRelation : Obligations.ComparesSetFlagsByTheRelation := by
  intro i s ka kb h
  rw [← ofCompare_eq_table]
  exact ⟨_, exec_of_comparedNumbers h, writesFlags_compare i.words ka kb s⟩

/-! ### The jumps (R171, 表7) -/

/-- Each jump sets PR alone; its condition of 表7 is a proposition about FR. -/
theorem jumpIf_eq_ite {c : Bool} {p : Prop} [Decidable p] (hc : c = true ↔ p) (adr : Word) (x : Option GR) (s : State) :
    jumpIf c adr x s = s.setPc (if p then effectiveAddress adr x s else s.nextPc 2) := by
  rw [jumpIf_eq]
  simp only [hc]

/-- LD, arithmetic and logical instructions finish with a result and the flags of it. -/
theorem exec_of_resultRegister {i : Instr} {s t : State} {r : GR} (h : resultRegister i = some r)
    (ht : exec i s = .next t) : ∃ n v o, t = finish n r v (FR.ofResult o v) s := by
  cases i with
  | ldMem | addaMem | addlMem | subaMem | sublMem | andMem | orMem | xorMem => cases h; cases ht; exact ⟨2, _, _, rfl⟩
  | ldReg | addaReg | addlReg | subaReg | sublReg | andReg | orReg | xorReg => cases h; cases ht; exact ⟨1, _, _, rfl⟩
  | _ => cases h

/-- A word is above zero as a signed number when it is neither negative nor zero. -/
theorem sint_pos_iff (v : Word) : sint v > 0 ↔ v.getLsbD 15 = false ∧ v ≠ 0 := by
  have hneg : v.getLsbD 15 = decide (sint v < 0) := by
    rw [← BitVec.msb_eq_toInt, BitVec.msb_eq_getLsbD_last]
  have hzero : v = 0 ↔ sint v = 0 := by
    rw [← BitVec.toInt_inj]
    rfl
  rw [hneg, Ne, hzero, decide_eq_false_iff_not]
  omega

/-- Settles O32: the conditions read FR as 表7 says, and FR is that of the compare or of the result. -/
theorem jumpsFollowTheConditionTable : Obligations.JumpsFollowTheConditionTable := by
  refine ⟨fun adr x s => ⟨?_, ?_, ?_, ?_, ?_, ?_⟩, fun i s t ka kb h ht => ?_, fun i s t r h ht => ?_⟩
  · exact congrArg Host.Outcome.next (jumpIf_eq_ite (by simp [FR.plus]) adr x s)
  · exact congrArg Host.Outcome.next (jumpIf_eq_ite Iff.rfl adr x s)
  · exact congrArg Host.Outcome.next (jumpIf_eq_ite (by simp [FR.nonZero]) adr x s)
  · exact congrArg Host.Outcome.next (jumpIf_eq_ite Iff.rfl adr x s)
  · exact congrArg Host.Outcome.next (jumpIf_eq_ite Iff.rfl adr x s)
  · exact congrArg Host.Outcome.next (jumpIf_eq_ite (by simp) adr x s)
  · rw [exec_of_comparedNumbers h] at ht
    cases ht
    obtain ⟨hfr, -⟩ := writesFlags_compare i.words ka kb s
    rw [hfr]
    refine ⟨?_, decide_eq_true_iff, decide_eq_true_iff, decide_eq_false_iff_not⟩
    simp only [FR.ofCompare, decide_eq_false_iff_not]
    omega
  · obtain ⟨n, v, o, rfl⟩ := exec_of_resultRegister h ht
    obtain ⟨hreg, -, hfr, -⟩ := writesRegister_finish n r v o s
    rw [hreg, hfr, sint_pos_iff]
    simp [flagsOf]

end Sys2Proof.Machine
end

-- ==== Proofs of the shift statements (43_shift.md R161 to R166) ====
section

namespace Sys2Proof.Machine

/-- A shift by a register-form result: what is left of it when the loop's answer is known. -/
theorem writesRegister_shiftReg {step : Word → Bool × Word} {r : GR} {adr : Word} {x : Option GR} {s : State}
    {res : Word} {out : Bool}
    (h : (res, out) = (shift step (s.reg r) (uint (effectiveAddress adr x s))).swap) :
    WritesRegister 2 r res (flagsOf out res) s (shiftReg step r adr x s) := by
  cases h
  exact writesRegister_finish 2 r _ _ s

/-! ### SLL -/

theorem shift_stepSll_register (v : Word) (n : Nat) : (shift stepSll v n).2 = v <<< n := by
  induction n with
  | zero => rw [shift_zero, BitVec.shiftLeft_zero]
  | succ n ih => rw [shift_succ, ih, BitVec.shiftLeft_add]; rfl

theorem ofNat_mul_two_pow (v : Word) (n : Nat) : BitVec.ofNat 16 (uint v * 2 ^ n) = v <<< n := by
  apply BitVec.eq_of_toNat_eq
  rw [BitVec.toNat_ofNat, BitVec.toNat_shiftLeft, Nat.shiftLeft_eq]

/-- The closed form of SLL: the last step sends out bit 15 of what the steps before it left. -/
theorem shift_stepSll (v : Word) (n : Nat) : (shift stepSll v n).swap =
    if n = 0 then (v, false)
    else if n ≤ 16 then (BitVec.ofNat 16 (uint v * 2 ^ n), v.getLsbD (16 - n))
    else (0, false) := by
  cases n with
  | zero => rfl
  | succ n =>
    have hout : (shift stepSll v (n + 1)).1 = (v <<< n).getLsbD 15 := by
      rw [shift_succ, shift_stepSll_register]
      rfl
    rw [if_neg n.succ_ne_zero, Prod.swap, hout, shift_stepSll_register, ofNat_mul_two_pow, BitVec.getLsbD_shiftLeft]
    by_cases hn : n + 1 ≤ 16
    · rw [if_pos hn, Nat.succ_sub_succ, decide_eq_false (show ¬ 15 < n by omega)]
      rfl
    · rw [if_neg hn, BitVec.shiftLeft_eq_zero (by omega), decide_eq_true (show 15 < n by omega)]
      rfl

/-- Settles O30. -/
theorem sllClosedForm : Obligations.SllClosedForm := by
  intro r adr x s v n res out hv hn h
  subst hv hn
  exact ⟨_, rfl, writesRegister_shiftReg (h.trans (shift_stepSll _ _).symm)⟩

/-! ### SRL -/

theorem shift_stepSrl_register (v : Word) (n : Nat) : (shift stepSrl v n).2 = v >>> n := by
  induction n with
  | zero => rw [shift_zero, BitVec.ushiftRight_zero]
  | succ n ih => rw [shift_succ, ih, BitVec.shiftRight_add]; rfl

theorem ofNat_div_two_pow (v : Word) (n : Nat) : BitVec.ofNat 16 (uint v / 2 ^ n) = v >>> n := by
  apply BitVec.eq_of_toNat_eq
  rw [BitVec.toNat_ofNat, BitVec.toNat_ushiftRight, Nat.shiftRight_eq_div_pow]
  exact Nat.mod_eq_of_lt (lt_of_le_of_lt (Nat.div_le_self _ _) v.isLt)

/-- The closed form of SRL: the last step sends out bit 0 of what the steps before it left. -/
theorem shift_stepSrl (v : Word) (n : Nat) : (shift stepSrl v n).swap =
    if n = 0 then (v, false)
    else if n ≤ 16 then (BitVec.ofNat 16 (uint v / 2 ^ n), v.getLsbD (n - 1))
    else (0, false) := by
  cases n with
  | zero => rfl
  | succ n =>
    have hout : (shift stepSrl v (n + 1)).1 = v.getLsbD n := by
      rw [shift_succ, shift_stepSrl_register]
      simp [stepSrl]
    rw [if_neg n.succ_ne_zero, Prod.swap, hout, shift_stepSrl_register, ofNat_div_two_pow, Nat.add_sub_cancel]
    by_cases hn : n + 1 ≤ 16
    · rw [if_pos hn]
    · rw [if_neg hn, BitVec.ushiftRight_eq_zero (by omega), BitVec.getLsbD_of_ge _ _ (by omega)]
      rfl

/-- Settles O31. -/
theorem srlClosedForm : Obligations.SrlClosedForm := by
  intro r adr x s v n res out hv hn h
  subst hv hn
  exact ⟨_, rfl, writesRegister_shiftReg (h.trans (shift_stepSrl _ _).symm)⟩

/-! ### SRA -/

theorem stepSra_register (v : Word) : (stepSra v).2 = v.sshiftRight 1 := by
  apply BitVec.eq_of_getLsbD_eq
  intro i hi
  rw [stepSra_bits v i hi, BitVec.getLsbD_sshiftRight, BitVec.msb_eq_getLsbD_last]
  interval_cases i <;> rfl

theorem shift_stepSra_register (v : Word) (n : Nat) : (shift stepSra v n).2 = v.sshiftRight n := by
  induction n with
  | zero => rw [shift_zero, BitVec.sshiftRight_zero]
  | succ n ih => rw [shift_succ, ih, BitVec.sshiftRight_add, stepSra_register]

/-- From 15 bits on every bit is the sign. -/
theorem sshiftRight_of_ge (v : Word) {n : Nat} (hn : 15 ≤ n) :
    v.sshiftRight n = if v.getLsbD 15 then 0xFFFF else 0 := by
  apply BitVec.eq_of_getLsbD_eq
  intro i hi
  have hsign : (v.sshiftRight n).getLsbD i = v.getLsbD 15 := by
    rw [BitVec.getLsbD_sshiftRight, decide_eq_false (show ¬ 16 ≤ i by omega), BitVec.msb_eq_getLsbD_last]
    by_cases h : n + i < 16
    · rw [if_pos h, show n + i = 15 by omega]
      rfl
    · rw [if_neg h]
      rfl
  rw [hsign]
  cases v.getLsbD 15 with
  | false => exact BitVec.getLsbD_zero.symm
  | true => exact (BitVec.getLsbD_allOnes.trans (decide_eq_true hi)).symm

/-- The closed form of SRA: the last step sends out bit 0 of what the steps before it left. -/
theorem shift_stepSra (v : Word) (n : Nat) : (shift stepSra v n).swap =
    if n = 0 then (v, false)
    else if n ≤ 15 then (w16 (sint v / 2 ^ n), v.getLsbD (n - 1))
    else (if v.getLsbD 15 then 0xFFFF else 0, v.getLsbD 15) := by
  cases n with
  | zero => rfl
  | succ n =>
    have hout : (shift stepSra v (n + 1)).1 = (v.sshiftRight n).getLsbD 0 := by
      rw [shift_succ, shift_stepSra_register]
      rfl
    rw [if_neg n.succ_ne_zero, Prod.swap, hout, shift_stepSra_register]
    by_cases hn : n + 1 ≤ 15
    · have hbit : (v.sshiftRight n).getLsbD 0 = v.getLsbD n := by
        rw [BitVec.getLsbD_sshiftRight, Nat.add_zero, if_pos (by omega)]
        rfl
      rw [if_pos hn, hbit, BitVec.sshiftRight, Int.shiftRight_eq_div_pow]
      rfl
    · rw [if_neg hn, sshiftRight_of_ge v (by omega), sshiftRight_of_ge v (by omega)]
      cases v.getLsbD 15 <;> rfl

/-- Settles O29. -/
theorem sraClosedForm : Obligations.SraClosedForm := by
  intro r adr x s v n res out hv hn h
  subst hv hn
  exact ⟨_, rfl, writesRegister_shiftReg (h.trans (shift_stepSra _ _).symm)⟩

/-! ### SLA -/

/-- The register of SLA, bit by bit: bit 15 stays, `n` zeros enter from below. -/
theorem shift_stepSla_bits (v : Word) (n i : Nat) (hi : i < 16) :
    (shift stepSla v n).2.getLsbD i = if i = 15 then v.getLsbD 15 else decide (n ≤ i) && v.getLsbD (i - n) := by
  induction n generalizing i with
  | zero =>
    rw [shift_zero]
    split
    next h => rw [h]
    next => simp
  | succ n ih =>
    rw [shift_succ, stepSla_bits]
    by_cases h15 : i = 15
    · rw [if_pos h15, if_pos h15, ih 15 (by decide), if_pos rfl]
    · rw [if_neg h15, if_neg h15]
      by_cases hn : n + 1 ≤ i
      · rw [ih (i - 1) (by omega), if_neg (by omega), decide_eq_true (show 0 < i ∧ i < 15 by omega),
          decide_eq_true (show n ≤ i - 1 by omega), decide_eq_true hn, Nat.sub_sub, Nat.add_comm 1 n]
        rfl
      · rw [decide_eq_false hn]
        by_cases h0 : 0 < i
        · rw [ih (i - 1) (by omega), if_neg (by omega), decide_eq_false (show ¬ n ≤ i - 1 by omega)]
          simp
        · simp [h0]

/-- The register of SLA as a number: the sign bit, and the low 15 bits times `2 ^ n`. -/
theorem shift_stepSla_register (v : Word) (n : Nat) : (shift stepSla v n).2 =
    BitVec.ofNat 16 (uint v / 32768 * 32768 + uint v % 32768 * 2 ^ n % 32768) := by
  apply BitVec.eq_of_getLsbD_eq
  intro i hi
  have hlow : uint v % 2 ^ 15 * 2 ^ n % 2 ^ 15 < 2 ^ 15 := Nat.mod_lt _ (by decide)
  rw [shift_stepSla_bits v n i hi, BitVec.getLsbD_ofNat, Nat.mul_comm (uint v / 32768),
    show (32768 : Nat) = 2 ^ 15 from rfl, Nat.testBit_two_pow_mul_add _ hlow, decide_eq_true hi, Bool.true_and]
  by_cases h15 : i = 15
  · rw [if_pos h15, if_neg (by omega), Nat.testBit_div_two_pow, h15]
    rfl
  · have hi15 : i < 15 := by omega
    rw [if_neg h15, if_pos hi15, Nat.testBit_mod_two_pow, Nat.testBit_mul_two_pow, Nat.testBit_mod_two_pow,
      decide_eq_true hi15, decide_eq_true (show i - n < 15 by omega)]
    rfl

/-- The closed form of SLA: the last step sends out bit 14 of what the steps before it left. -/
theorem shift_stepSla (v : Word) (n : Nat) : (shift stepSla v n).swap =
    if n = 0 then (v, false)
    else if n ≤ 15 then
      (BitVec.ofNat 16 (uint v / 32768 * 32768 + uint v % 32768 * 2 ^ n % 32768), v.getLsbD (15 - n))
    else (BitVec.ofNat 16 (uint v / 32768 * 32768), false) := by
  cases n with
  | zero => rfl
  | succ n =>
    have hout : (shift stepSla v (n + 1)).1 = (decide (n ≤ 14) && v.getLsbD (14 - n)) := by
      rw [shift_succ]
      exact (shift_stepSla_bits v n 14 (by decide)).trans (if_neg (by decide))
    rw [if_neg n.succ_ne_zero, Prod.swap, hout, shift_stepSla_register]
    by_cases hn : n + 1 ≤ 15
    · rw [if_pos hn, Nat.succ_sub_succ, decide_eq_true (show n ≤ 14 by omega), Bool.true_and]
    · have hgone : uint v % 32768 * 2 ^ (n + 1) % 32768 = 0 :=
        Nat.mod_eq_zero_of_dvd (Dvd.dvd.mul_left (pow_dvd_pow 2 (show 15 ≤ n + 1 by omega)) _)
      rw [if_neg hn, hgone, Nat.add_zero, decide_eq_false (show ¬ n ≤ 14 by omega), Bool.false_and]

/-- Settles O28. -/
theorem slaClosedForm : Obligations.SlaClosedForm := by
  intro r adr x s v n res out hv hn h
  subst hv hn
  exact ⟨_, rfl, writesRegister_shiftReg (h.trans (shift_stepSla _ _).symm)⟩

end Sys2Proof.Machine
end

-- ==== Proofs of the stack, call and supervisor call statements (45_stack.md to 49_macro_in_out.md) ====
section

namespace Sys2Proof.Machine

/-! ### PUSH, POP, CALL, RET, NOP -/

theorem sameRegsBut_pushWord (s : State) (v : Word) : SameRegsBut [.gr8] s (s.pushWord v) := by
  intro g hg
  rw [State.reg_pushWord, if_neg (List.mem_singleton.not.1 hg)]

theorem sameStorageBut_pushWord (s : State) (v : Word) : SameStorageBut (s.sp - 1) s (s.pushWord v) := by
  intro b hb
  rw [State.read_pushWord, if_neg hb]

/-- The pushed word is on top of the stack. -/
theorem read_pushWord_top (s : State) (v : Word) : (s.pushWord v).read (s.sp - 1) = v := by
  rw [State.read_pushWord, if_pos rfl]

theorem exec_push (adr : Word) (x : Option GR) (s : State) :
    exec (.push adr x) s = .next ((s.pushWord (effectiveAddress adr x s)).advance 2) := rfl

theorem exec_call (adr : Word) (x : Option GR) (s : State) :
    exec (.call adr x) s = .next ((s.pushWord (s.nextPc 2)).setPc (effectiveAddress adr x s)) := rfl

theorem exec_pop (r : GR) (s : State) : exec (.pop r) s = .next ((s.popReg r).advance 1) := rfl

/-- Settles O33. -/
theorem pushStoresTheEffectiveAddress : Obligations.PushStoresTheEffectiveAddress :=
  fun adr x s => ⟨_, exec_push adr x s, rfl, read_pushWord_top s _, sameStorageBut_pushWord s _,
    sameRegsBut_pushWord s (effectiveAddress adr x s), rfl, rfl, rfl, rfl, rfl, rfl, rfl⟩

/-- Settles O38. -/
theorem callPushesTheReturnAddress : Obligations.CallPushesTheReturnAddress :=
  fun adr x s => ⟨_, exec_call adr x s, rfl, rfl, read_pushWord_top s _, sameStorageBut_pushWord s _,
    sameRegsBut_pushWord s (s.nextPc 2), rfl, rfl, rfl, rfl, rfl, rfl⟩

/-- Settles O34: POP GR8 increments the word that it loaded. -/
theorem popLoadsTheTopOfTheStack : Obligations.PopLoadsTheTopOfTheStack := by
  intro r s
  refine ⟨_, exec_pop r s, ?_, registersWrittenAreTheNamedOnes _ s _ (exec_pop r s), fun _ => rfl,
    rfl, rfl, rfl, rfl, rfl, rfl, rfl⟩
  split
  next hr => rw [hr]; rfl
  next hr =>
    rw [State.popReg_other s r hr]
    refine ⟨?_, rfl⟩
    rw [State.reg_advance, State.reg_setSp, if_neg hr, State.reg_setReg_same]

/-- Settles O39. -/
theorem retPopsPr : Obligations.RetPopsPr := by
  intro s
  obtain ⟨t, ht⟩ := exec_completes (i := .ret) rfl s
  obtain ⟨hgr, hpc, hfr, hmem, hin, hout, hos, hended, hfree⟩ := exec_ret_fields ht
  refine ⟨t, ht, hpc, ?_, ?_, sameStorage_of_mem_eq hmem, registersWrittenAreTheNamedOnes .ret s t ht,
    hfr, hin, hout, hos, hfree⟩
  · rw [State.sp_def t, hgr, GprFile.get_set_same]
  · rw [hended, decide_eq_true_iff]

/-- Settles O40: the RET pops the word that the CALL pushed. -/
theorem callThenRetReturnsBehindTheCall : Obligations.CallThenRetReturnsBehindTheCall := by
  intro adr x s t u ht hsp htop
  obtain ⟨t', ht', -, hspCall, hpushed, -⟩ := callPushesTheReturnAddress adr x s
  obtain rfl : t' = t := Host.Outcome.next.inj (ht'.symm.trans ht)
  obtain ⟨v, hv, hpc, hspRet, -⟩ := retPopsPr u
  refine ⟨v, hv, ?_, ?_⟩
  · rw [hpc, htop, hspCall, hpushed]
  · rw [hspRet, hsp, hspCall, BitVec.sub_add_cancel]

/-- Settles O41. -/
theorem nopChangesOnlyPr : Obligations.NopChangesOnlyPr := fun _ => rfl

/-! ### RPUSH: pushes one after the other (R184) -/

/-- The slot `n + 1` words below `p` is the slot `n` words below the word under `p`. -/
theorem sub_one_sub_ofNat (p : Word) (n : Nat) : p - 1 - BitVec.ofNat 16 n = p - BitVec.ofNat 16 (n + 1) := by
  rw [sub_sub, BitVec.ofNat_add, BitVec.add_comm]
  rfl

/-- Two slots counted from one word are different, as long as the count does not wrap. -/
theorem sub_ofNat_ne {m n : Nat} (hm : m < 65536) (hn : n < 65536) (hne : m ≠ n) (p : Word) :
    p - BitVec.ofNat 16 m ≠ p - BitVec.ofNat 16 n := by
  intro h
  have hnat := congrArg BitVec.toNat (sub_right_inj.1 h)
  rw [BitVec.toNat_ofNat, BitVec.toNat_ofNat, Nat.mod_eq_of_lt hm, Nat.mod_eq_of_lt hn] at hnat
  exact hne hnat

/-- Pushing registers in order: SP falls by their number; the `n`-th, or for GR8 the address of its slot, stands `n + 1`
words below the old SP; the words outside those slots are as before. -/
theorem foldl_pushReg_stack (l : List GR) (s : State) (hl : l.length < 65536) :
    (l.foldl State.pushReg s).sp = s.sp - BitVec.ofNat 16 l.length
    ∧ (∀ (n : Nat) (h : n < l.length), (l.foldl State.pushReg s).read (s.sp - BitVec.ofNat 16 (n + 1)) =
        if l[n] = .gr8 then s.sp - BitVec.ofNat 16 (n + 1) else s.reg l[n])
    ∧ ∀ b, (∀ n < l.length, b ≠ s.sp - BitVec.ofNat 16 (n + 1)) → (l.foldl State.pushReg s).read b = s.read b := by
  induction l generalizing s with
  | nil => exact ⟨(BitVec.sub_zero _).symm, fun n h => absurd h (Nat.not_lt_zero n), fun _ _ => rfl⟩
  | cons r l ih =>
    rw [List.length_cons] at hl
    have hsp : (s.pushReg r).sp = s.sp - 1 := by rw [State.sp, State.reg_pushReg, if_pos rfl]
    obtain ⟨isp, ihslots, ihelse⟩ := ih (s.pushReg r) (by omega)
    rw [hsp] at isp ihslots ihelse
    simp only [sub_one_sub_ofNat] at isp ihslots ihelse
    refine ⟨isp, fun n h => ?_, fun b hb => ?_⟩
    · rw [List.foldl_cons]
      cases n with
      | zero =>
        rw [ihelse _ fun n hn => sub_ofNat_ne (by omega) (by omega) (by omega) s.sp, State.read_pushReg]
        exact if_pos rfl
      | succ n =>
        rw [ihslots n (by simpa using h), List.getElem_cons_succ]
        split
        next => rfl
        next h8 => rw [State.reg_pushReg, if_neg h8]
    · rw [List.foldl_cons, ihelse b fun n hn => hb (n + 1) (by simpa using hn), State.read_pushReg, if_neg]
      exact hb 0 (by simp)

/-- The eight slots of RPUSH, counted down from SP. -/
theorem rpushSlots_eq (p : Word) : [p - 1, p - 2, p - 3, p - 4, p - 5, p - 6, p - 7, p - 8] =
    (List.range rpushOrder.length).map fun n => p - BitVec.ofNat 16 (n + 1) := rfl

/-- Settles O35, slot by slot. -/
theorem rpushStoresTheRegistersBelowSp : Obligations.RpushStoresTheRegistersBelowSp := by
  intro s
  obtain ⟨hsp, hslots, helse⟩ := foldl_pushReg_stack rpushOrder s (by decide)
  obtain ⟨hpc, hfr, -⟩ := State.foldl_pushReg_frame rpushOrder s
  refine ⟨_, exec_rpush s, hsp, ?_, ?_, ?_, ?_, ?_, ?_, ?_, ?_, fun b hb => ?_,
    registersWrittenAreTheNamedOnes .rpush s _ (exec_rpush s), ?_, ?_,
    exec_sameHost rfl (by nofun) (exec_rpush s)⟩
  · exact (State.read_advance ..).trans (hslots 0 (by decide))
  · exact (State.read_advance ..).trans (hslots 1 (by decide))
  · exact (State.read_advance ..).trans (hslots 2 (by decide))
  · exact (State.read_advance ..).trans (hslots 3 (by decide))
  · exact (State.read_advance ..).trans (hslots 4 (by decide))
  · exact (State.read_advance ..).trans (hslots 5 (by decide))
  · exact (State.read_advance ..).trans (hslots 6 (by decide))
  · exact (State.read_advance ..).trans (hslots 7 (by decide))
  · rw [State.read_advance]
    refine helse b fun n hn hslot => hb ?_
    rw [rpushSlots_eq]
    exact List.mem_map.2 ⟨n, List.mem_range.2 hn, hslot.symm⟩
  · rw [State.advance_fr, hfr]
  · rw [State.advance_pc, State.nextPc_def, hpc]
    rfl

/-! ### RPOP: pops one after the other (R185) -/

/-- Popping different registers other than GR8 in order: SP rises by their number, and the `n`-th holds the word `n` words
above the old SP. -/
theorem foldl_popReg_stack (l : List GR) (s : State) (hl : l.Nodup) (h8 : .gr8 ∉ l) :
    (l.foldl State.popReg s).sp = s.sp + BitVec.ofNat 16 l.length
    ∧ ∀ (n : Nat) (h : n < l.length), (l.foldl State.popReg s).reg l[n] = s.read (s.sp + BitVec.ofNat 16 n) := by
  induction l generalizing s with
  | nil => exact ⟨(BitVec.add_zero _).symm, fun n h => absurd h (Nat.not_lt_zero n)⟩
  | cons r l ih =>
    obtain ⟨hr, hl⟩ := List.nodup_cons.1 hl
    obtain ⟨hr8, h8⟩ := not_or.1 (List.mem_cons.not.1 h8)
    have hsp : (s.popReg r).sp = s.sp + 1 := by rw [State.popReg_other s r (Ne.symm hr8)]; rfl
    obtain ⟨ihsp, ihreg⟩ := ih (s.popReg r) hl h8
    rw [hsp] at ihsp ihreg
    simp only [charAddress_succ] at ihsp ihreg
    refine ⟨ihsp, fun n h => ?_⟩
    cases n with
    | zero =>
      rw [List.foldl_cons, List.getElem_cons_zero, reg_foldl_popReg_notMem l _ hr (Ne.symm hr8),
        State.reg_popReg_other s r r (Ne.symm hr8), if_neg (Ne.symm hr8), if_pos rfl]
      exact congrArg s.read (BitVec.add_zero _).symm
    | succ n => exact ihreg n (by simpa using h)

/-- Settles O36: `rpopOrder` has GR8 first, and the seven others are popped from where that leaves SP. -/
theorem rpopLoadsTheRegistersFromTheStack : Obligations.RpopLoadsTheRegistersFromTheStack := by
  intro s u hu
  have hgr8 : (s.popReg .gr8).sp = u := by rw [State.popReg_gr8, State.sp_setSp, hu]
  obtain ⟨hsp, hregs⟩ := foldl_popReg_stack [.gr7, .gr6, .gr5, .gr4, .gr3, .gr2, .gr1] (s.popReg .gr8)
    (by decide) (by decide)
  rw [hgr8] at hsp hregs
  obtain ⟨hpc, hfr, -⟩ := State.foldl_popReg_frame rpopOrder s
  refine ⟨_, exec_rpop s, ?_, ?_, ?_, ?_, ?_, ?_, ?_, hsp,
    registersWrittenAreTheNamedOnes .rpop s _ (exec_rpop s) .gr0 (by decide),
    sameStorage_of_mem_eq (exec_mem rfl rfl (exec_rpop s)), ?_, ?_, exec_sameHost rfl (by nofun) (exec_rpop s)⟩
  · exact (hregs 0 (by decide)).trans (congrArg s.read (BitVec.add_zero u))
  · exact hregs 1 (by decide)
  · exact hregs 2 (by decide)
  · exact hregs 3 (by decide)
  · exact hregs 4 (by decide)
  · exact hregs 5 (by decide)
  · exact hregs 6 (by decide)
  · rw [State.advance_fr, hfr]
  · rw [State.advance_pc, State.nextPc_def, hpc]
    rfl

/-- Settles O37: the word on top is the address of its own slot, so RPOP loads from the slot above it on, the seven registers
in the order opposite to that in which RPUSH stored them. -/
theorem rpushThenRpopRestoresTheRegisters : Obligations.RpushThenRpopRestoresTheRegisters := by
  intro s t u ht hsp hslots
  obtain ⟨t', ht', hspPush, h1, h2, h3, h4, h5, h6, h7, h8, -⟩ := rpushStoresTheRegistersBelowSp s
  obtain rfl : t' = t := Host.Outcome.next.inj (ht'.symm.trans ht)
  simp only [List.forall_mem_cons] at hslots
  obtain ⟨k1, k2, k3, k4, k5, k6, k7, k8, -⟩ := hslots
  have htop : s.sp - 7 = u.read u.sp + 1 := by rw [hsp, hspPush, k8, h8]; bv_omega
  obtain ⟨v, hv, r7, r6, r5, r4, r3, r2, r1, hspPop, r0, hstorage, hfr, -⟩ :=
    rpopLoadsTheRegistersFromTheStack u (s.sp - 7) htop
  refine ⟨v, hv, fun g hg => ?_, r0, hfr, hstorage⟩
  cases g with
  | gr0 => exact absurd rfl hg
  | gr1 => rw [r1, show s.sp - 7 + 6 = s.sp - 1 by bv_omega, k1, h1]
  | gr2 => rw [r2, show s.sp - 7 + 5 = s.sp - 2 by bv_omega, k2, h2]
  | gr3 => rw [r3, show s.sp - 7 + 4 = s.sp - 3 by bv_omega, k3, h3]
  | gr4 => rw [r4, show s.sp - 7 + 3 = s.sp - 4 by bv_omega, k4, h4]
  | gr5 => rw [r5, show s.sp - 7 + 2 = s.sp - 5 by bv_omega, k5, h5]
  | gr6 => rw [r6, show s.sp - 7 + 1 = s.sp - 6 by bv_omega, k6, h6]
  | gr7 => rw [r7, k7, h7]
  | gr8 => exact hspPop.trans (BitVec.sub_add_cancel s.sp 7)

/-! ### SVC (47_other.md R202; 49_macro_in_out.md R253, R258) -/

theorem exec_svc_of_ok {adr : Word} {x : Option GR} {s u : State}
    (h : supervisorCall (effectiveAddress adr x s) s = .ok u) : exec (.svc adr x) s = .next (returnFromService u) := by
  simp only [exec, execSvc, h]

theorem supervisorCall_one {arg : Word} (h : uint arg = 1) (s : State) : supervisorCall arg s = .ok (serviceIn s) := by
  rw [supervisorCall, if_pos h]

theorem supervisorCall_two {arg : Word} (h : uint arg = 2) (s : State) : supervisorCall arg s = serviceOut s := by
  rw [supervisorCall, if_neg (by omega), if_pos h]

theorem serviceIn_nil {s : State} (h : s.input = []) : serviceIn s = s.write (s.reg .gr2) 0xFFFF := by
  simp only [serviceIn, h]

theorem serviceIn_cons {s : State} {rec : Record} {more : List Record} (h : s.input = rec :: more) :
    serviceIn s =
      { s with
        mem := (storeChars (s.reg .gr1) (rec.take Config.inputAreaWords) s.mem).write (s.reg .gr2)
          (w16 (rec.take Config.inputAreaWords).length)
        input := more } := by
  simp only [serviceIn, h]

/-- Settles O42: the codes are stored first, the length word over them. -/
theorem svcOneReadsARecord : Obligations.SvcOneReadsARecord := by
  intro adr x s rec more harg hin
  have hexec := exec_svc_of_ok (supervisorCall_one harg s)
  have hlen : (rec.take Config.inputAreaWords).length = min rec.length 256 := by
    rw [List.length_take, Nat.min_comm]
    rfl
  obtain ⟨hchars, helse⟩ := storeChars_read (rec.take Config.inputAreaWords) (s.reg .gr1) s.mem (by omega)
  obtain ⟨-, hpc, hos, hended, hfr, hfree, -⟩ := exec_svc_frame hexec
  obtain ⟨-, -, -, hout, -⟩ := serviceIn_frame s
  refine ⟨_, hexec, ?_, fun n h h256 hne => ?_, fun a ha hnot => ?_, ?_, hout, ?_, hos, hended, hpc, hfr, hfree⟩
  · rw [State.read_returnFromService, serviceIn_cons hin, State.read_def, Memory.read_write_same, hlen]
  · rw [State.read_returnFromService, serviceIn_cons hin, State.read_def, Memory.read_write_other _ _ _ _ hne,
      hchars n (by omega), List.getElem_take]
  · rw [State.read_returnFromService, serviceIn_cons hin, State.read_def, Memory.read_write_other _ _ _ _ ha,
      helse a fun n hn => hnot n (by omega) (by omega)]
    rfl
  · obtain ⟨-, -, -, -, -, hinput, -⟩ := returnFromService_frame (serviceIn s)
    rw [hinput, serviceIn_cons hin]
  · exact registersWrittenAreTheNamedOnes (.svc adr x) s _ hexec

/-- Settles O43. -/
theorem svcOneAtEndOfFileStoresMinusOne : Obligations.SvcOneAtEndOfFileStoresMinusOne := by
  intro adr x s harg hin
  have hexec := exec_svc_of_ok (supervisorCall_one harg s)
  obtain ⟨-, hpc, hos, hended, hfr, hfree, -⟩ := exec_svc_frame hexec
  obtain ⟨-, -, -, hout, -⟩ := serviceIn_frame s
  refine ⟨_, hexec, ?_, fun b hb => ?_, ?_, hout, registersWrittenAreTheNamedOnes (.svc adr x) s _ hexec,
    hos, hended, hpc, hfr, hfree⟩
  · rw [State.read_returnFromService, serviceIn_nil hin, State.read_write_same]
  · rw [State.read_returnFromService, serviceIn_nil hin, State.read_write_other _ _ _ _ hb]
  · obtain ⟨-, -, -, -, -, hinput, -⟩ := returnFromService_frame (serviceIn s)
    rw [hinput, serviceIn_nil hin, State.write_input, hin]

theorem serviceOut_of_nonneg {s : State} (h : 0 ≤ sint (s.read (s.reg .gr2))) : serviceOut s =
    .ok { s with output := s.output ++ [loadChars s.mem (s.reg .gr1) (uint (s.read (s.reg .gr2)))] } := by
  rw [serviceOut, if_neg (by omega)]

theorem serviceOut_of_neg {s : State} (h : sint (s.read (s.reg .gr2)) < 0) :
    serviceOut s = .error (.outLengthNegative (s.read (s.reg .gr2))) := by
  rw [serviceOut, if_pos h]

/-- Settles O44. -/
theorem svcTwoWritesARecord : Obligations.SvcTwoWritesARecord := by
  intro adr x s harg hlen
  have hexec := exec_svc_of_ok ((supervisorCall_two harg s).trans (serviceOut_of_nonneg hlen))
  obtain ⟨-, hpc, hos, hended, hfr, hfree, -⟩ := exec_svc_frame hexec
  exact ⟨_, loadChars s.mem (s.reg .gr1) (uint (s.read (s.reg .gr2))), hexec, rfl, loadChars_length _ _ _,
    fun n h => loadChars_getElem _ _ _ n h, rfl, fun _ => rfl, registersWrittenAreTheNamedOnes (.svc adr x) s _ hexec,
    hos, hended, hpc, hfr, hfree⟩

theorem exec_svc_of_error {adr : Word} {x : Option GR} {s : State} {r : Refusal}
    (h : supervisorCall (effectiveAddress adr x s) s = .error r) : exec (.svc adr x) s = .refused r := by
  simp only [exec, execSvc, h]

/-- Settles O45. -/
theorem svcIsRefusedWithoutAService : Obligations.SvcIsRefusedWithoutAService := by
  refine fun adr x s => ⟨fun h1 h2 => exec_svc_of_error ?_, fun h2 hneg => exec_svc_of_error ?_⟩
  · rw [supervisorCall, if_neg h1, if_neg h2]
  · rw [supervisorCall_two h2, serviceOut_of_neg hneg]

end Sys2Proof.Machine
end

-- ==== Proofs of the flag statements (10_state.md R27 to R30) ====
section

namespace Sys2Proof.Machine

/-! ### The FR column of the tables (R30) -/

/-- Settles O47: FR is kept, or is that of the register the instruction leaves its result in, or of a compare, or drawn. -/
theorem flagColumnOfTheTables : Obligations.FlagColumnOfTheTables := by
  intro i s t ht
  cases i with
  | nop | st | lad | push | pop | call | ret => cases ht; rfl
  | rpush => exact carriesFlags_rpush.fr_eq ht
  | rpop => exact carriesFlags_rpop.fr_eq ht
  | jmi | jnz | jze | jump | jpl | jov => cases ht; exact jumpIf_fr ..
  | ldMem | andMem | orMem | xorMem | sla | sra | sll | srl => cases ht; exact finish_fr_eq_flagsOf ..
  | ldReg | andReg | orReg | xorReg => cases ht; exact finish_fr_eq_flagsOf ..
  | addaMem | addlMem | subaMem | sublMem => cases ht; exact finish_fr_eq_flagsOf ..
  | addaReg | addlReg | subaReg | sublReg => cases ht; exact finish_fr_eq_flagsOf ..
  | cpaMem | cplMem | cpaReg | cplReg => cases ht; exact ⟨rfl, FR.ofCompare_SF_or_ZF _ _⟩
  | svc =>
    obtain ⟨-, -, -, -, hfr, -⟩ := exec_svc_frame ht
    exact hfr

/-! ### OF (R27) -/

/-- OF after either form of an operation, when `p` says that the exact result is out of range. -/
theorem ArithmeticForms.OF_iff {mem : GR → Word → Option GR → Instr} {reg : GR → GR → Instr}
    {overflow : Int → Bool} {exactResult : Word → Word → Int} (h : ArithmeticForms mem reg overflow exactResult)
    {p : Word → Word → Prop} (hp : ∀ a b, overflow (exactResult a b) = true ↔ p a b) (s t : State) :
    (∀ r adr x, exec (mem r adr x) s = .next t →
      (t.fr.OF = true ↔ p (s.reg r) (s.read (effectiveAddress adr x s))))
    ∧ ∀ r1 r2, exec (reg r1 r2) s = .next t → (t.fr.OF = true ↔ p (s.reg r1) (s.reg r2)) := by
  refine ⟨fun r adr x ht => ?_, fun r1 r2 ht => ?_⟩
  · obtain ⟨hOF, -⟩ := h.of_reg ht (.inl ⟨adr, x, rfl, rfl⟩)
    rw [hOF, hp]
  · obtain ⟨hOF, -⟩ := h.of_reg ht (.inr ⟨r2, rfl, rfl⟩)
    rw [hOF, hp]

/-- The FR of a shift by `k + 1` has the bit that its last step sends out. -/
theorem shiftReg_OF (step : Word → Bool × Word) {r : GR} {adr : Word} {x : Option GR} {s : State} {k : Nat}
    (hk : uint (effectiveAddress adr x s) = k + 1) :
    (shiftReg step r adr x s).fr.OF = (step (shift step (s.reg r) k).2).1 := by
  rw [← shift_succ step (s.reg r) k, ← hk]
  rfl

/-- Settles O49: the range conditions of R27 are those of the model's exact results. -/
theorem overflowFlagRule : Obligations.OverflowFlagRule := by
  intro s t
  obtain ⟨addaMem, addaReg⟩ := arithmeticForms_adda.OF_iff (fun _ _ => decide_eq_true_iff) s t
  obtain ⟨subaMem, subaReg⟩ := arithmeticForms_suba.OF_iff (fun _ _ => decide_eq_true_iff) s t
  obtain ⟨addlMem, addlReg⟩ := arithmeticForms_addl.OF_iff (fun _ _ => decide_eq_true_iff) s t
  obtain ⟨sublMem, sublReg⟩ := arithmeticForms_subl.OF_iff (fun _ _ => decide_eq_true_iff) s t
  refine ⟨addaMem, addaReg, subaMem, subaReg, addlMem, addlReg, sublMem, sublReg,
    ?_, ?_, ?_, ?_, ?_, ?_, ?_, ?_, ?_, ?_, ?_, ?_, ?_, ?_, ?_, ?_⟩
  case refine_13 | refine_14 | refine_15 | refine_16 =>
    intro r adr x k ht hk
    cases ht
    exact shiftReg_OF _ hk
  case refine_1 | refine_3 | refine_5 | refine_7 | refine_9 | refine_11 => intro r adr x ht; cases ht; rfl
  all_goals intro r1 r2 ht; cases ht; rfl

end Sys2Proof.Machine
end

-- ==== Proofs of the launch statements (70_reset_and_hazards.md R290, R291; 48_casl2_assembler.md R233, R234) ====
section

namespace Sys2Proof.Machine

/-! ### What a successful launch went through -/

/-- The programs loaded, the storage that loading leaves, and the entry. -/
theorem Launch.start_ok {l : Launch} {s : State} (h : l.start = .ok s) :
    l.ok = true ∧ distinct (l.programs.map fun q => q.2.name) = true
    ∧ ∃ base p rest m, l.programs = (base, p) :: rest ∧ loadAll l.programs l.programs l.initMem = .ok m
      ∧ s = l.enter m (w16 (base + p.start)) := by
  unfold Launch.start at h
  split at h
  next hok =>
    split at h
    next => cases h
    next base p rest hprograms =>
      split at h
      next => cases h
      next hdistinct =>
        split at h
        next => cases h
        next m hload =>
          cases h
          exact ⟨hok, by simpa using hdistinct, base, p, rest, m, hprograms, hload, rfl⟩
  next => cases h

theorem pairwise_disjoint_of_pairwiseDisjoint {rs : List (Nat × Nat)} (h : pairwiseDisjoint rs = true) :
    rs.Pairwise fun a b => disjoint a b = true := by
  induction rs with
  | nil => exact List.Pairwise.nil
  | cons r rs ih =>
    obtain ⟨hr, hrs⟩ := Bool.and_eq_true_iff.1 h
    exact List.pairwise_cons.2 ⟨List.all_eq_true.1 hr, ih hrs⟩

/-- The range of storage that a program takes. -/
def programRange (q : Nat × ObjModule) : Nat × Nat := (q.1, q.2.words.length)

/-- The constraints of R291 (a) to (c) on the programs and the stack, and that of INIT_MEM. -/
structure LaunchFits (l : Launch) : Prop where
  programs_fit : ∀ q ∈ l.programs, q.1 + q.2.words.length ≤ 65536
  stackWords_pos : 1 ≤ l.stackWords
  stackWords_le : l.stackWords ≤ l.stackTop
  stackTop_le : l.stackTop ≤ 65536
  programs_disjoint : l.programs.Pairwise fun q q' => disjoint (programRange q) (programRange q') = true
  stack_disjoint : ∀ q ∈ l.programs, disjoint (programRange q) (l.stackTop - l.stackWords, l.stackWords) = true
  initMem_wf : l.initMem.wf

theorem launchFits_of_ok {l : Launch} (h : l.ok = true) : LaunchFits l := by
  simp only [Launch.ok, Bool.and_eq_true, List.all_eq_true, decide_eq_true_iff] at h
  obtain ⟨⟨⟨hfit, hpos, hle, htop⟩, hdisjoint⟩, hwf⟩ := h
  obtain ⟨hprograms, -, hstack⟩ := List.pairwise_append.1 (pairwise_disjoint_of_pairwiseDisjoint hdisjoint)
  exact ⟨hfit, hpos, hle, htop, List.pairwise_map.1 hprograms,
    fun q hq => hstack _ (List.mem_map_of_mem hq) _ List.mem_cons_self, hwf⟩

/-- Settles O14, field by field of the entry. -/
theorem launchEntersTheFirstProgram : Obligations.LaunchEntersTheFirstProgram := by
  intro l s h
  obtain ⟨hok, -, base, p, rest, m, hprograms, hload, rfl⟩ := Launch.start_ok h
  obtain ⟨hgr, hpc, hfr, hmem, hin, hout, hos, hended⟩ := l.enter_fields m (w16 (base + p.start))
  have hsp : (l.enter m (w16 (base + p.start))).sp = w16 l.stackTop - 1 := by
    rw [State.sp_def, hgr, GprFile.get_set_same]
  refine ⟨base, p, rest, hprograms, hpc, hsp, ?_, fun g hg => ?_, hfr, hin, hout, hos, hended, ?_, ?_⟩
  · rw [hsp, State.read_def, hmem, Memory.read_write_same]
  · rw [State.reg_def, hgr, GprFile.get_set_other _ _ _ _ hg, GprFile.get_set_other _ _ _ _ hg]
  · rw [hmem]
    exact Memory.wf_write (loadAll_wf (launchFits_of_ok hok).initMem_wf hload) _ _
  · rw [hended]
    nofun

/-! ### Where loading puts the words (R232, R233) -/

/-- Each word of a program that loads within storage gets its real value at its own address; a reserved one keeps what was
there. -/
theorem loadWords_inside {ps : List (Nat × ObjModule)} {base k : Nat} {xs : List Src} {m n : Memory}
    (hk : k + xs.length ≤ 65536) (h : loadWords ps base (w16 k) xs m = .ok n) (i : Nat) (hi : i < xs.length) :
    ∃ v, relocate ps base xs[i] = .ok v
      ∧ n.read (w16 (k + i : Nat)) = v.getD (m.read (w16 (k + i : Nat))) := by
  induction xs generalizing k m i with
  | nil => exact absurd hi (Nat.not_lt_zero i)
  | cons x xs ih =>
    rw [List.length_cons] at hk hi
    cases i with
    | zero =>
      have hbelow : (w16 k).toNat < k + 1 := by rw [toNat_w16 k (by omega)]; omega
      rcases loadWords_cons h with ⟨w, hx, hrest⟩ | ⟨hx, hrest⟩ <;> rw [w16_succ] at hrest
      · refine ⟨some w, hx, ?_⟩
        rw [Nat.add_zero, loadWords_outside (by omega) hrest _ (.inl hbelow), Memory.read_write_same]
        rfl
      · refine ⟨none, hx, ?_⟩
        rw [Nat.add_zero, loadWords_outside (by omega) hrest _ (.inl hbelow)]
        rfl
    | succ i =>
      have haddr : k + (i + 1) = k + 1 + i := by omega
      rw [haddr, List.getElem_cons_succ]
      rcases loadWords_cons h with ⟨w, -, hrest⟩ | ⟨-, hrest⟩ <;> rw [w16_succ] at hrest
      · obtain ⟨v, hv, hread⟩ := ih (by omega) hrest i (by omega)
        refine ⟨v, hv, ?_⟩
        rw [hread, Memory.read_write_other]
        intro he
        have := congrArg BitVec.toNat he
        rw [toNat_w16 _ (by omega), toNat_w16 _ (by omega)] at this
        omega
      · exact ih (by omega) hrest i (by omega)

/-- Is the word at `a` none of the program's words? -/
def Outside (a : Word) (q : Nat × ObjModule) : Prop := a.toNat < q.1 ∨ q.1 + q.2.words.length ≤ a.toNat

/-- Loading one program, then the others. -/
theorem loadAll_cons {ps qs : List (Nat × ObjModule)} {q : Nat × ObjModule} {m n : Memory}
    (h : loadAll ps (q :: qs) m = .ok n) :
    ∃ m', loadWords ps q.1 (w16 q.1) q.2.words m = .ok m' ∧ loadAll ps qs m' = .ok n := by
  simp only [loadAll] at h
  split at h
  next => cases h
  next m' hm' => exact ⟨m', hm', h⟩

theorem loadAll_outside {ps qs : List (Nat × ObjModule)} {m n : Memory} (h : loadAll ps qs m = .ok n)
    (hfit : ∀ q ∈ qs, q.1 + q.2.words.length ≤ 65536) {a : Word} (ha : ∀ q ∈ qs, Outside a q) :
    n.read a = m.read a := by
  induction qs generalizing m with
  | nil => cases h; rfl
  | cons q qs ih =>
    obtain ⟨m', hq, hqs⟩ := loadAll_cons h
    obtain ⟨haq, haqs⟩ := List.forall_mem_cons.1 ha
    obtain ⟨hfitq, hfitqs⟩ := List.forall_mem_cons.1 hfit
    rw [ih hqs hfitqs haqs, loadWords_outside hfitq hq a haq]

theorem disjoint_iff (a b : Nat × Nat) :
    disjoint a b = true ↔ a.2 = 0 ∨ b.2 = 0 ∨ a.1 + a.2 ≤ b.1 ∨ b.1 + b.2 ≤ a.1 := decide_eq_true_iff

theorem disjoint_comm (a b : Nat × Nat) : disjoint a b = disjoint b a := by
  rw [Bool.eq_iff_iff, disjoint_iff, disjoint_iff]
  omega

/-- A word of one program lies outside every program disjoint from it. -/
theorem outside_of_disjoint {q q' : Nat × ObjModule} (h : disjoint (programRange q) (programRange q') = true)
    (hfit : q.1 + q.2.words.length ≤ 65536) {i : Nat} (hi : i < q.2.words.length) :
    Outside (w16 (q.1 + i : Nat)) q' := by
  have hranges := (disjoint_iff _ _).1 h
  simp only [programRange] at hranges
  rw [Outside, toNat_w16 _ (by omega)]
  omega

/-- Programs that are disjoint do not overwrite each other's words. -/
theorem loadAll_inside {ps qs : List (Nat × ObjModule)} {m n : Memory} (h : loadAll ps qs m = .ok n)
    (hfit : ∀ q ∈ qs, q.1 + q.2.words.length ≤ 65536)
    (hdisjoint : qs.Pairwise fun q q' => disjoint (programRange q) (programRange q') = true)
    {q : Nat × ObjModule} (hq : q ∈ qs) (i : Nat) (hi : i < q.2.words.length) :
    ∃ v, relocate ps q.1 q.2.words[i] = .ok v
      ∧ n.read (w16 (q.1 + i : Nat)) = v.getD (m.read (w16 (q.1 + i : Nat))) := by
  induction qs generalizing m with
  | nil => cases hq
  | cons p qs ih =>
    obtain ⟨m', hp, hqs⟩ := loadAll_cons h
    obtain ⟨hdp, hdqs⟩ := List.pairwise_cons.1 hdisjoint
    obtain ⟨hfitp, hfitqs⟩ := List.forall_mem_cons.1 hfit
    rcases List.mem_cons.1 hq with rfl | hmem
    · rw [loadAll_outside hqs hfitqs fun q' hq' => outside_of_disjoint (hdp q' hq') hfitp hi]
      exact loadWords_inside hfitp hp i hi
    · obtain ⟨v, hv, hread⟩ := ih hqs hfitqs hdqs hmem
      have hd : disjoint (programRange q) (programRange p) = true := disjoint_comm .. ▸ hdp q hmem
      exact ⟨v, hv, by rw [hread, loadWords_outside hfitp hp _ (outside_of_disjoint hd (hfitqs q hmem) hi)]⟩

/-! ### The entry stores one word more, in the stack area (R290) -/

theorem LaunchFits.toNat_sp {l : Launch} (h : LaunchFits l) : (w16 l.stackTop - 1).toNat = l.stackTop - 1 := by
  have hpos := h.stackWords_pos
  have hle := h.stackWords_le
  have htop := h.stackTop_le
  have hsucc : w16 l.stackTop = w16 (l.stackTop - 1 : Nat) + 1 := by
    rw [w16_succ, Nat.sub_add_cancel (by omega)]
  rw [hsucc, BitVec.add_sub_cancel, toNat_w16 _ (by omega)]

/-- The word on top of the stack is no program's. -/
theorem LaunchFits.programWord_ne_sp {l : Launch} (h : LaunchFits l) {q : Nat × ObjModule} (hq : q ∈ l.programs)
    {i : Nat} (hi : i < q.2.words.length) : w16 (q.1 + i : Nat) ≠ w16 l.stackTop - 1 := by
  intro he
  have hfit := h.programs_fit q hq
  have hpos := h.stackWords_pos
  have hle := h.stackWords_le
  have hranges := (disjoint_iff _ _).1 (h.stack_disjoint q hq)
  simp only [programRange] at hranges
  have hnat := congrArg BitVec.toNat he
  rw [toNat_w16 _ (by omega), h.toNat_sp] at hnat
  omega

/-- Settles O15: each program's words stay as loaded, since programs and stack are disjoint. -/
theorem launchPlacesEveryWord : Obligations.LaunchPlacesEveryWord := by
  intro l s h
  obtain ⟨hok, hdistinct, base, p, rest, m, -, hload, rfl⟩ := Launch.start_ok h
  have hfits := launchFits_of_ok hok
  obtain ⟨hgr, -, -, hmem, -⟩ := l.enter_fields m (w16 (base + p.start))
  generalize l.enter m (w16 (base + p.start)) = s at hgr hmem
  have hread : ∀ a, a ≠ w16 l.stackTop - 1 → s.read a = m.read a := fun a ha => by
    rw [State.read_def, hmem, Memory.read_write_other _ _ _ _ ha]
  refine ⟨fun b q hq n hn => ?_, fun a ha hout => ?_⟩
  · obtain ⟨v, hv, hplaced⟩ := loadAll_inside hload hfits.programs_fit hfits.programs_disjoint hq n hn
    rw [← hread _ (hfits.programWord_ne_sp hq hn)] at hplaced
    refine ⟨fun w hw => ?_, fun k hw => ?_, fun name hw => ?_, fun hw => ?_⟩ <;>
      rw [hw] at hv
    · cases hv; exact hplaced
    · cases hv; exact hplaced
    · simp only [relocate] at hv
      split at hv
      next w hlink =>
        cases hv
        obtain ⟨b', q', hmem', hname, -⟩ := linkName_some hlink
        refine ⟨⟨b', q', hmem', hname⟩, fun b'' q'' hmem'' hname'' => ?_⟩
        rw [← hname'', linkName_mem hdistinct hmem''] at hlink
        cases hlink
        exact hplaced
      next => cases hv
    · cases hv; exact hplaced
  · have hsp : s.sp = w16 l.stackTop - 1 := by rw [State.sp_def, hgr, GprFile.get_set_same]
    rw [hread a (hsp ▸ ha)]
    exact loadAll_outside hload hfits.programs_fit fun q hq => hout q.1 q.2 hq

end Sys2Proof.Machine
end

-- ==== Proofs of the assembler statements (48_casl2_assembler.md R213 to R235; 49_macro_in_out.md R251, R256) ====
section

namespace Sys2Proof.Machine

/-! ### What assembling a program gives -/

/-- The start offset that START's operand stands for, and the words of the lines before the pool. -/
theorem assembleProgram_ok {name : Label} {entry : Option Label} {ls : List SourceLine} {m : ObjModule}
    (h : assembleProgram name entry ls = .ok m) :
    m.name = name ∧ (entry = none → m.start = 0)
    ∧ (∀ e, entry = some e → offsetOf e (labelOffsets 0 ls) = some m.start)
    ∧ m.words = bodySrcs ((name, m.start) :: labelOffsets 0 ls) (bodySize ls) ls ++ literalPool ls
    ∧ distinct ((labelOffsets 0 ls).map Prod.fst) = true := by
  simp only [assembleProgram] at h
  split at h
  next => cases h
  next n hstart =>
    split at h
    next hdistinct =>
      cases h
      obtain ⟨-, hlabels⟩ := Bool.and_eq_true_iff.1 hdistinct
      refine ⟨rfl, ?_, ?_, rfl, hlabels⟩
      · rintro rfl
        exact (Option.some.inj hstart).symm
      · rintro e rfl
        exact hstart
    next => cases h

/-- Settles O55. -/
theorem assembledSizeIsTheSumOfTheLines : Obligations.AssembledSizeIsTheSumOfTheLines := by
  intro name entry ls m h
  obtain ⟨hname, -, -, hwords, -⟩ := assembleProgram_ok h
  refine ⟨hname, ?_⟩
  rw [hwords, List.length_append, bodySrcs_length, literalPool_length]

/-- Settles O57: the expansion computes to the twelve words. -/
theorem macrosExpandToTwelveWords : Obligations.MacrosExpandToTwelveWords := by
  rintro labels lit area len B L rfl rfl
  exact ⟨rfl, rfl⟩

/-! ### Labels (R213) -/

theorem labelOffsets_append (offset : Nat) (a b : List SourceLine) :
    labelOffsets offset (a ++ b) = labelOffsets offset a ++ labelOffsets (offset + bodySize a) b := by
  induction a generalizing offset with
  | nil => rfl
  | cons l a ih =>
    have hsize : offset + bodySize (l :: a) = offset + l.stmt.size + bodySize a := by
      simp only [bodySize, List.map_cons, List.sum_cons]
      omega
    rw [hsize, List.cons_append, labelOffsets, labelOffsets]
    cases l.label with
    | none => exact ih _
    | some n => rw [ih]; rfl

/-- Where the labels differ, each stands for its own offset. -/
theorem offsetOf_mem {labels : List (Label × Nat)} (hd : distinct (labels.map Prod.fst) = true) {name : Label}
    {n : Nat} (hm : (name, n) ∈ labels) : offsetOf name labels = some n := by
  induction labels with
  | nil => cases hm
  | cons p labels ih =>
    obtain ⟨hp, hd⟩ := Bool.and_eq_true_iff.1 hd
    rcases List.mem_cons.1 hm with rfl | hm
    · exact if_pos rfl
    · have hne : p.1 ≠ name := by
        rintro rfl
        simp only [Bool.not_eq_true', List.contains_eq_mem, decide_eq_false_iff_not] at hp
        exact hp (List.mem_map.2 ⟨(p.1, n), hm, rfl⟩)
      rw [offsetOf, if_neg hne, ih hd hm]

theorem offsetOf_label {before after : List SourceLine} {l : SourceLine} {name : Label}
    (hd : distinct ((labelOffsets 0 (before ++ l :: after)).map Prod.fst) = true) (hl : l.label = some name) :
    offsetOf name (labelOffsets 0 (before ++ l :: after)) = some (bodySize before) := by
  refine offsetOf_mem hd ?_
  rw [labelOffsets_append, labelOffsets, hl, Nat.zero_add]
  exact List.mem_append_right _ List.mem_cons_self

/-! ### Where the words of a line and of its literal stand (R230 to R232) -/

theorem take_drop_middle {α : Type} (a b c : List α) : ((a ++ (b ++ c)).drop a.length).take b.length = b := by
  rw [List.drop_left, List.take_left]

/-- The words of a line stand behind those of the lines before it. -/
theorem words_of_line (labels : List (Label × Nat)) (before after : List SourceLine) (l : SourceLine) (lit : Nat)
    (pool : List Src) :
    ((bodySrcs labels lit (before ++ l :: after) ++ pool).drop (bodySize before)).take l.stmt.size =
      l.stmt.srcs labels (lit + (before.map fun k => k.stmt.literalSize).sum) := by
  rw [bodySrcs_append, bodySrcs, List.append_assoc, List.append_assoc, ← bodySrcs_length labels before lit,
    ← stmt_srcs_length labels (lit + (before.map fun k => k.stmt.literalSize).sum) l.stmt, take_drop_middle]

/-- The words of a line's literals stand in the pool behind those of the lines before it. -/
theorem words_of_literals (body : List Src) (before after : List SourceLine) (l : SourceLine) :
    ((body ++ literalPool (before ++ l :: after)).drop
        (body.length + (before.map fun k => k.stmt.literalSize).sum)).take (literalPool [l]).length = literalPool [l] := by
  have hpool : literalPool (before ++ l :: after) = literalPool before ++ (literalPool [l] ++ literalPool after) := by
    rw [literalPool_append, ← literalPool_append [l]]
    rfl
  rw [hpool, ← literalPool_length, ← List.length_append, ← List.append_assoc, take_drop_middle]

theorem literalPool_literal {l : SourceLine} {i : Instr} {c : Const} (h : l.stmt = .machine i (some (.literal c))) :
    literalPool [l] = c.words.map .fixed := by
  simp [literalPool, h, Stmt.literals]

/-- The second word of a two-word instruction is that of its adr. -/
theorem machineSrcs_of_words_two {i : Instr} (h : i.words = 2) (a : Src) :
    (machineSrcs i (some a))[1]? = some a := by
  obtain ⟨w0, w1, hw⟩ := List.length_eq_two.1 h
  simp [machineSrcs, hw]

/-- Settles O56: the lines' words stand one after the other, then the literals' in the same order. -/
theorem aLabelNamesTheFirstWordOfItsLine : Obligations.ALabelNamesTheFirstWordOfItsLine := by
  intro name entry before after l m h
  obtain ⟨-, hnone, hentry, hwords, hdistinct⟩ := assembleProgram_ok h
  have hline := words_of_line ((name, m.start) :: labelOffsets 0 (before ++ l :: after)) before after l
    (bodySize (before ++ l :: after)) (literalPool (before ++ l :: after))
  rw [← hwords] at hline
  refine ⟨hnone, hentry, fun n hn => offsetOf_label hdistinct hn, hline, fun i c lit hstmt hlit => ⟨?_, fun h2 => ?_⟩⟩
  · have hpool := words_of_literals (bodySrcs ((name, m.start) :: labelOffsets 0 (before ++ l :: after))
      (bodySize (before ++ l :: after)) (before ++ l :: after)) before after l
    rw [← hwords, bodySrcs_length, literalPool_literal hstmt, List.length_map, ← hlit] at hpool
    exact hpool
  · have hsize : 1 < l.stmt.size := by
      rw [hstmt, Stmt.size, h2]
      decide
    rw [← hlit, hstmt] at hline
    rw [← List.getElem?_drop, ← List.getElem?_take_of_lt (hstmt ▸ hsize), hline]
    exact machineSrcs_of_words_two h2 _

end Sys2Proof.Machine
end

-- ==== Proofs of the statements about character constants (48_casl2_assembler.md R222, R225) ====
section

namespace Sys2Proof.Machine

/-! ### The string between the apostrophes (R222) -/

theorem isStringChar_iff (b : Byte) : isStringChar b = true ↔
    b = 0x20 ∨ (0x21 ≤ b.toNat ∧ b.toNat ≤ 0x7E) ∨ (0xA1 ≤ b.toNat ∧ b.toNat ≤ 0xDF) := by
  simp only [isStringChar, isSpace, isGraphic, isKatakana, Bool.or_eq_true, beq_iff_eq, decide_eq_true_iff]

/-- A character as it is written between the apostrophes: an apostrophe twice. -/
def quotedChar (c : Byte) : Text := if c = 0x27 then [0x27, 0x27] else [c]

/-- The text that writes a string, after its opening apostrophe. -/
def quotedString (cs : List Byte) : Text := cs.flatMap quotedChar ++ [0x27]

theorem quotedString_apostrophe (cs : List Byte) :
    quotedString (apostrophe :: cs) = apostrophe :: apostrophe :: quotedString cs := rfl

theorem quotedString_cons {c : Byte} (hc : c ≠ apostrophe) (cs : List Byte) :
    quotedString (c :: cs) = c :: quotedString cs := by
  have hquoted : quotedChar c = [c] := if_neg hc
  rw [quotedString, List.flatMap_cons, hquoted]
  rfl

theorem parseChars_apostrophe (t : Text) :
    parseChars (apostrophe :: apostrophe :: t) = (parseChars t).map (apostrophe :: ·) := rfl

theorem parseChars_cons {b : Byte} (hb : b ≠ apostrophe) {t : Text} (ht : t ≠ []) :
    parseChars (b :: t) = if isStringChar b then (parseChars t).map (b :: ·) else none := by
  cases t with
  | nil => exact absurd rfl ht
  | cons c t => rw [parseChars, if_neg hb]

theorem quotedString_ne_nil (cs : List Byte) : quotedString cs ≠ [] := by
  simp [quotedString]

/-- A string of admitted characters is read back. -/
theorem parseChars_quotedString {cs : List Byte} (h : ∀ c ∈ cs, isStringChar c = true) :
    parseChars (quotedString cs) = some cs := by
  induction cs with
  | nil => rfl
  | cons c cs ih =>
    obtain ⟨hc, hcs⟩ := List.forall_mem_cons.1 h
    by_cases hap : c = apostrophe
    · rw [hap, quotedString_apostrophe, parseChars_apostrophe, ih hcs]
      rfl
    · rw [quotedString_cons hap, parseChars_cons hap (quotedString_ne_nil cs), if_pos hc, ih hcs]
      rfl

/-- What is read is a string of admitted characters, and the text is the one that writes it. -/
theorem of_parseChars_eq_some (t : Text) (cs : List Byte) (h : parseChars t = some cs) :
    (∀ c ∈ cs, isStringChar c = true) ∧ t = quotedString cs := by
  induction t using parseChars.induct generalizing cs with
  | case1 => cases h
  | case2 =>
    cases h
    exact ⟨nofun, rfl⟩
  | case3 b hb =>
    rw [parseChars, if_neg hb] at h
    cases h
  | case4 t ih =>
    rw [parseChars_apostrophe] at h
    obtain ⟨cs', hcs', rfl⟩ := Option.map_eq_some_iff.1 h
    obtain ⟨hall, rfl⟩ := ih cs' hcs'
    exact ⟨List.forall_mem_cons.2 ⟨by decide, hall⟩, rfl⟩
  | case5 c t hc =>
    rw [parseChars, if_pos rfl, if_neg hc] at h
    cases h
  | case6 b c t hb hchar ih =>
    rw [parseChars_cons hb (List.cons_ne_nil c t), if_pos hchar] at h
    obtain ⟨cs', hcs', rfl⟩ := Option.map_eq_some_iff.1 h
    obtain ⟨hall, ht⟩ := ih cs' hcs'
    exact ⟨List.forall_mem_cons.2 ⟨hchar, hall⟩, by rw [ht, quotedString_cons hb]⟩
  | case7 b c t hb hchar =>
    rw [parseChars_cons hb (List.cons_ne_nil c t), if_neg hchar] at h
    cases h

theorem parseChars_eq_some_iff (t : Text) (cs : List Byte) :
    parseChars t = some cs ↔ (∀ c ∈ cs, isStringChar c = true) ∧ t = quotedString cs :=
  ⟨of_parseChars_eq_some t cs, fun ⟨hall, ht⟩ => ht ▸ parseChars_quotedString hall⟩

/-- A character constant begins with an apostrophe: no other first character gives one. -/
theorem parseConst_eq_chars_iff (t : Text) (cs : List Byte) :
    parseConst t = some (.chars cs) ↔ ∃ rest, t = apostrophe :: rest ∧ parseChars rest = some cs := by
  cases t with
  | nil => simp [parseConst]
  | cons b rest =>
    by_cases hhash : b = 0x23
    · subst hhash
      rw [parseConst_hash]
      simp [apostrophe]
    · by_cases hap : b = apostrophe
      · subst hap
        have hread : parseConst (apostrophe :: rest) = (parseChars rest).map .chars := rfl
        simp [hread]
      · rw [parseConst, if_neg hhash, if_neg hap]
        simp [hap]

/-- DC of a character constant: one word per character (R222). -/
theorem srcs_chars (labels : List (Label × Nat)) (cs : List Byte) :
    (DcItem.const (.chars cs)).srcs labels = cs.map fun c => .fixed (BitVec.ofNat 16 c.toNat) := by
  simp only [DcItem.srcs, Const.words, List.map_map]
  exact List.map_congr_left fun c _ => congrArg Src.fixed (BitVec.ofNat_toNat ..).symm

/-! ### The katakana (U24) -/

/-- A statement writes out a katakana in one of its character constants. -/
def Stmt.HoldsKatakana (st : Stmt) : Prop :=
  ∃ cs c, .chars cs ∈ st.constants ∧ c ∈ cs ∧ 0xA1 ≤ c.toNat ∧ c.toNat ≤ 0xDF

theorem any_hasKatakana_iff (st : Stmt) : st.constants.any Const.hasKatakana = true ↔ st.HoldsKatakana := by
  rw [List.any_eq_true]
  constructor
  · rintro ⟨k, hk, hkata⟩
    cases k with
    | chars cs =>
      obtain ⟨c, hc, hrange⟩ := List.any_eq_true.1 hkata
      exact ⟨cs, c, hk, hc, decide_eq_true_iff.1 hrange⟩
    | dec | hex => cases hkata
  · rintro ⟨cs, c, hcs, hc, hrange⟩
    exact ⟨.chars cs, hcs, List.any_eq_true.2 ⟨c, hc, decide_eq_true hrange⟩⟩

theorem refuseKatakana_of_holds {st : Stmt} (h : st.HoldsKatakana) :
    refuseKatakana st = .error .katakanaInConstant := by
  rw [refuseKatakana, if_pos ((any_hasKatakana_iff st).2 h)]

theorem refuseKatakana_of_not_holds {st : Stmt} (h : ¬ st.HoldsKatakana) : refuseKatakana st = .ok st := by
  rw [refuseKatakana, if_neg ((any_hasKatakana_iff st).not.2 h)]

theorem readStmt_of_parseStmt {mn : Text} {ops : List Text} {st : Stmt} (h : parseStmt mn ops = .ok st) :
    readStmt mn ops = refuseKatakana st := by
  rw [readStmt, h]

/-- A statement that is read holds no katakana. -/
theorem not_holdsKatakana_of_readStmt {mn : Text} {ops : List Text} {st : Stmt} (h : readStmt mn ops = .ok st) :
    ¬ st.HoldsKatakana := by
  intro hkata
  unfold readStmt at h
  split at h
  next => cases h
  next st' _ =>
    by_cases hst : st'.HoldsKatakana
    · rw [refuseKatakana_of_holds hst] at h
      cases h
    · rw [refuseKatakana_of_not_holds hst] at h
      cases h
      exact hst hkata

/-- An instruction line that is accepted says a statement that was read. -/
theorem readStmt_of_parseLine {line : Text} {l : SourceLine} (h : parseLine line = .ok (some l)) :
    ∃ mn ops, readStmt mn ops = .ok l.stmt := by
  simp only [parseLine] at h
  split at h
  next => cases h
  next =>
    split at h
    next => cases h
    next =>
      split at h
      next => cases h
      next =>
        split at h
        next => cases h
        next st hst =>
          refine ⟨_, _, hst.trans (congrArg Except.ok ?_)⟩
          split at h
          next => split at h <;> cases h; rfl
          next => split at h <;> cases h; rfl
          next => cases h; rfl

/-- Settles O59. -/
theorem characterConstantsAreQuotedStrings : Obligations.CharacterConstantsAreQuotedStrings := by
  refine ⟨fun t cs => ⟨?_, fun labels => srcs_chars labels cs⟩,
    fun mn ops st hst => ⟨fun hkata => ?_, fun hkata => ?_⟩, fun line l cs c hline hcs hc => ?_⟩
  · rw [parseConst_eq_chars_iff]
    simp only [parseChars_eq_some_iff, isStringChar_iff]
    constructor
    · rintro ⟨rest, rfl, hall, rfl⟩
      exact ⟨hall, rfl⟩
    · rintro ⟨hall, rfl⟩
      exact ⟨_, rfl, hall, rfl⟩
  · rw [readStmt_of_parseStmt hst, refuseKatakana_of_holds hkata]
  · rw [readStmt_of_parseStmt hst, refuseKatakana_of_not_holds hkata]
  · obtain ⟨mn, ops, hread⟩ := readStmt_of_parseLine hline
    by_contra hrange
    exact not_holdsKatakana_of_readStmt hread ⟨cs, c, hcs, hc, by omega⟩

end Sys2Proof.Machine
end
